-- ==== Sys2Proof/Word.lean ====
section
/-! DEFINITION. The widths of the values the block handles (00_scope.md R4, R7): every value is an
unsigned bit pattern of a stated width. -/

namespace Sys2Proof

/-- The 32-bit input word of one call (10_state.md R11), bit 0 least significant (00_scope.md R6). -/
abbrev Word := BitVec 32

/-- One byte of the supplier's stream (20_memory.md R31). -/
abbrev Byte := BitVec 8

/-- The opcode field, bits 0 to 6 (30_encoding.md R46). -/
abbrev Opcode := BitVec 7

/-- A register index `rd`, `rs1` or `rs2`: a 5-bit number, no more (10_state.md R16). -/
abbrev RegIdx := BitVec 5

abbrev Funct3 := BitVec 3

abbrev Funct7 := BitVec 7

end Sys2Proof
end

