-- ==== Sys2Proof/Config.lean ====
section
/-! DEFINITION. The parameters the spec leaves open (00_scope.md R5, 93_implementation_defined.md).
Of the two functional parameters, `S_IMM_HI_BITS` stands here; the other, `GenericDump`, is taken at
the default text of 44_render.md R190 (`dump`, Machine/Render.lean; log entry 8). The spec leaves no value
without a rule, so there is no free value. -/

namespace Sys2Proof

/-- `S_IMM_HI_BITS`, the width of `S.imm_hi`: 6 for this hardware (00_scope.md R5 (a), 90_conflicts.md C1,
92_eei_decisions.md D4). Log entry 5. -/
abbrev Config.sImmHiBits : Nat := 6

/-- The high immediate field of the S variant, from word bit 25 up (30_encoding.md R49). -/
abbrev SImmHi := BitVec Config.sImmHiBits

end Sys2Proof
end

