-- ==== Sys2Proof/Machine/Values.lean ====
section
/-! DEFINITION. The types of the values that cross the block's boundary (00_scope.md R9, 10_state.md R12 to
R14, 43_opselect.md R125). All are plain immutable data (10_state.md R24). -/

namespace Sys2Proof

/-- `Result<T, E>` (00_scope.md R9). -/
inductive Result (α ε : Type) where
  | ok  (value : α)
  | err (error : ε)
  deriving DecidableEq, Repr

/-- The six formats (30_encoding.md R47 to R52). -/
inductive Format where
  | R | I | S | B | U | J
  deriving DecidableEq, Repr

/-- `Instruction`: a tagged union over six format variants, fields in the document's order
(10_state.md R12). -/
inductive Instruction where
  | R (opcode : Opcode) (rd : RegIdx) (funct3 : Funct3) (rs1 rs2 : RegIdx) (funct7 : Funct7)
  | I (opcode : Opcode) (rd : RegIdx) (funct3 : Funct3) (rs1 : RegIdx) (imm : BitVec 12)
  | S (opcode : Opcode) (immLo : BitVec 5) (funct3 : Funct3) (rs1 rs2 : RegIdx) (immHi : SImmHi)
  | B (opcode : Opcode) (immLo : BitVec 5) (funct3 : Funct3) (rs1 rs2 : RegIdx) (immHi : BitVec 7)
  | U (opcode : Opcode) (rd : RegIdx) (imm : BitVec 20)
  | J (opcode : Opcode) (rd : RegIdx) (imm : BitVec 20)
  deriving DecidableEq, Repr

/-- `DecodeError` has exactly one constructor (10_state.md R13); the payload is `word[6:0]`. -/
inductive DecodeError where
  | unknownOpcode (value : Opcode)
  deriving DecidableEq, Repr

/-- `Op`, the 34 operations and `none` (the spec's `NONE`: no mnemonic; render the generic dump)
(43_opselect.md R125). -/
inductive Op where
  | add | sub | xor | or | and | sll | srl | sra | slt | sltu
  | addi | xori | ori | andi | slli | srli | slti | sltiu
  | lb | lh | lw | lbu | lhu
  | sb | sh | sw
  | beq | bne | blt | bge | bltu | bgeu
  | lui | jal
  | none
  deriving DecidableEq, Repr

/-- The bundle of outputs for a word that decodes (10_state.md R14). A reassembled immediate exists only for
its own variant; for every other variant it is absent. -/
structure Decoded where
  instr : Instruction
  op    : Op
  bImm  : Option (BitVec 13)
  sImm  : Option (BitVec 12)
  jImm  : Option (BitVec 21)
  text  : String
  deriving DecidableEq, Repr

/-- The result of one call, `Result<Decoded, DecodeError>` (10_state.md R14). -/
abbrev CallResult := Result Decoded DecodeError

/-- Why a byte sequence yields no instruction: the word's opcode is unknown (41_decode.md R106), or the
bytes are fewer than one word (20_memory.md R33: the only transfer is one whole word; log entry 12). -/
inductive DecodeReject where
  | unknownOpcode (value : Opcode)
  | incompleteWord
  deriving DecidableEq, Repr

/-- One row of the opcode table as the spec prints it (30_encoding.md R60). -/
structure TableRow where
  mnemonic : String
  mask     : Word
  bits     : Word
  fallback : Bool
  deriving DecidableEq, Repr

end Sys2Proof
end

