-- ==== Sys2Proof/Syntax.lean ====
section
/-! DEFINITION. The instructions: one constructor per row of spec/opcode_table.json, 34 mnemonics and 6
fallback classes (30_encoding.md R60). Operands are the raw fields of the row's format that its match and
mask leave free, in word-bit order of 10_state.md R12. -/

namespace Sys2Proof

inductive Instr where
  -- format R, opcode 0110011 (43_opselect.md R126 to R135)
  | add  (rd rs1 rs2 : RegIdx)
  | sub  (rd rs1 rs2 : RegIdx)
  | xor  (rd rs1 rs2 : RegIdx)
  | or   (rd rs1 rs2 : RegIdx)
  | and  (rd rs1 rs2 : RegIdx)
  | sll  (rd rs1 rs2 : RegIdx)
  | srl  (rd rs1 rs2 : RegIdx)
  | sra  (rd rs1 rs2 : RegIdx)
  | slt  (rd rs1 rs2 : RegIdx)
  | sltu (rd rs1 rs2 : RegIdx)
  -- format I, opcode 0010011 (R136 to R143)
  | addi  (rd rs1 : RegIdx) (imm : BitVec 12)
  | xori  (rd rs1 : RegIdx) (imm : BitVec 12)
  | ori   (rd rs1 : RegIdx) (imm : BitVec 12)
  | andi  (rd rs1 : RegIdx) (imm : BitVec 12)
  | slli  (rd rs1 : RegIdx) (imm : BitVec 12)
  | srli  (rd rs1 : RegIdx) (imm : BitVec 12)
  | slti  (rd rs1 : RegIdx) (imm : BitVec 12)
  | sltiu (rd rs1 : RegIdx) (imm : BitVec 12)
  -- format I, opcode 0000011 (R144 to R148)
  | lb  (rd rs1 : RegIdx) (imm : BitVec 12)
  | lh  (rd rs1 : RegIdx) (imm : BitVec 12)
  | lw  (rd rs1 : RegIdx) (imm : BitVec 12)
  | lbu (rd rs1 : RegIdx) (imm : BitVec 12)
  | lhu (rd rs1 : RegIdx) (imm : BitVec 12)
  -- format S, opcode 0100011 (R149 to R151)
  | sb (immLo : BitVec 5) (rs1 rs2 : RegIdx) (immHi : SImmHi)
  | sh (immLo : BitVec 5) (rs1 rs2 : RegIdx) (immHi : SImmHi)
  | sw (immLo : BitVec 5) (rs1 rs2 : RegIdx) (immHi : SImmHi)
  -- format B, opcode 1100011 (R152 to R157)
  | beq  (immLo : BitVec 5) (rs1 rs2 : RegIdx) (immHi : BitVec 7)
  | bne  (immLo : BitVec 5) (rs1 rs2 : RegIdx) (immHi : BitVec 7)
  | blt  (immLo : BitVec 5) (rs1 rs2 : RegIdx) (immHi : BitVec 7)
  | bge  (immLo : BitVec 5) (rs1 rs2 : RegIdx) (immHi : BitVec 7)
  | bltu (immLo : BitVec 5) (rs1 rs2 : RegIdx) (immHi : BitVec 7)
  | bgeu (immLo : BitVec 5) (rs1 rs2 : RegIdx) (immHi : BitVec 7)
  -- formats U and J (R158, R159)
  | lui (rd : RegIdx) (imm : BitVec 20)
  | jal (rd : RegIdx) (imm : BitVec 20)
  -- fallback classes: a recognised opcode whose function codes select no mnemonic (R160 to R165)
  | noneOp     (rd : RegIdx) (funct3 : Funct3) (rs1 rs2 : RegIdx) (funct7 : Funct7)
  | noneLoad   (rd : RegIdx) (funct3 : Funct3) (rs1 : RegIdx) (imm : BitVec 12)
  | noneJalr   (rd : RegIdx) (funct3 : Funct3) (rs1 : RegIdx) (imm : BitVec 12)
  | noneSystem (rd : RegIdx) (funct3 : Funct3) (rs1 : RegIdx) (imm : BitVec 12)
  | noneStore  (immLo : BitVec 5) (funct3 : Funct3) (rs1 rs2 : RegIdx) (immHi : SImmHi)
  | noneBranch (immLo : BitVec 5) (funct3 : Funct3) (rs1 rs2 : RegIdx) (immHi : BitVec 7)
  deriving DecidableEq, Repr

end Sys2Proof
end

