-- ==== Sys2Proof/WellFormed.lean ====
section
/-! DEFINITION. Which instructions stand for words of their row. Field widths are in the types; the one
further condition is that a fallback row holds only the function codes no mnemonic has (30_encoding.md R60,
43_opselect.md R160, R161, R164, R165). -/

namespace Sys2Proof

/-- The ten `(funct3, funct7)` pairs of format R that select a mnemonic (43_opselect.md R126 to R135). -/
def opKeys : List (Funct3 × Funct7) :=
  [(0, 0), (0, 32), (4, 0), (6, 0), (7, 0), (1, 0), (5, 0), (5, 32), (2, 0), (3, 0)]

/-- The five `funct3` values of the LOAD class that select a mnemonic (R144 to R148). -/
def loadKeys : List Funct3 := [0, 1, 2, 4, 5]

/-- The three `funct3` values of the STORE class that select a mnemonic (R149 to R151). -/
def storeKeys : List Funct3 := [0, 1, 2]

/-- The six `funct3` values of the BRANCH class that select a mnemonic (R152 to R157). -/
def branchKeys : List Funct3 := [0, 1, 4, 5, 6, 7]

/-- Every mnemonic row is well-formed at all its operands; `none.jalr` and `none.system` at every `funct3`
(R162, R163); the other fallback rows outside the keys of their class. -/
def Instr.wellFormed : Instr → Bool
  | .noneOp _ funct3 _ _ funct7 => !opKeys.contains (funct3, funct7)
  | .noneLoad _ funct3 _ _ => !loadKeys.contains funct3
  | .noneStore _ funct3 _ _ _ => !storeKeys.contains funct3
  | .noneBranch _ funct3 _ _ _ => !branchKeys.contains funct3
  | .add .. | .sub .. | .xor .. | .or .. | .and .. | .sll .. | .srl .. | .sra .. | .slt .. | .sltu .. => true
  | .addi .. | .xori .. | .ori .. | .andi .. | .slli .. | .srli .. | .slti .. | .sltiu .. => true
  | .lb .. | .lh .. | .lw .. | .lbu .. | .lhu .. => true
  | .sb .. | .sh .. | .sw .. => true
  | .beq .. | .bne .. | .blt .. | .bge .. | .bltu .. | .bgeu .. => true
  | .lui .. | .jal .. | .noneJalr .. | .noneSystem .. => true

end Sys2Proof
end

