-- ==== Sys2Proof/Decode.lean ====
section
/-! DEFINITION. Bit-field extraction (40_extract.md), format classification and construction (41_decode.md), the
reading of a word as a row of the opcode table (30_encoding.md R60), and, after them, the encoder
(41_decode.md R107 (e)). -/

namespace Sys2Proof

/-! ## The one primitive -/

/-- `extract(w, lo, hi) = w[hi:lo]`, right-aligned and unsigned, for `lo <= hi <= 31` only: the proof argument
makes every other call unrepresentable (40_extract.md R80, R83, R84). -/
def extract (w : Word) (lo hi : Nat) (_valid : lo ≤ hi ∧ hi ≤ 31 := by decide) : BitVec (hi - lo + 1) :=
  w.extractLsb hi lo

/-- A field narrower than 32 bits taken as a 32-bit word with zeros above its width, the form in which
`extract` is applied to it (40_extract.md R85). -/
def asWord {n : Nat} (field : BitVec n) : Word := field.setWidth 32

/-- The narrowest of the containers 8, 16, 32 that holds `n` bits (40_extract.md R81). -/
def containerBits (n : Nat) : Nat := if n ≤ 8 then 8 else if n ≤ 16 then 16 else 32

/-- A value in its container: zeros above its width (40_extract.md R81, 42_immediates.md R111). -/
def contain {n : Nat} (v : BitVec n) : BitVec (containerBits n) := v.setWidth (containerBits n)

/-! ## The boundary's byte order -/

/-- `word_of_bytes(b0, b1, b2, b3) = {b3, b2, b1, b0}` (20_memory.md R31). -/
def wordOfBytes (b0 b1 b2 b3 : Byte) : Word := (b3 ++ b2 ++ b1 ++ b0).cast (by decide)

/-- The four bytes of a word in stream order, the inverse of `wordOfBytes`. -/
def bytesOfWord (w : Word) : List Byte :=
  [extract w 0 7, extract w 8 15, extract w 16 23, extract w 24 31]

/-- The words a supplier assembles from a byte stream, four bytes each; one to three bytes left over make
no word (20_memory.md R31, R33; log entry 12). -/
def wordsOfBytes : List Byte → List Word
  | b0 :: b1 :: b2 :: b3 :: rest => wordOfBytes b0 b1 b2 b3 :: wordsOfBytes rest
  | _ => []

/-! ## Format classification -/

/-- The map from opcode value to format (30_encoding.md R54); `none` is the unrecognised space (R55). -/
def formatOf : Opcode → Option Format
  | 0b0110011#7 => some .R
  | 0b0010011#7 => some .I
  | 0b0000011#7 => some .I
  | 0b0100011#7 => some .S
  | 0b1100011#7 => some .B
  | 0b1101111#7 => some .J
  | 0b1100111#7 => some .I
  | 0b0110111#7 => some .U
  | 0b1110011#7 => some .I
  | _ => none

/-- 41_decode.md R100. -/
def mkR (w : Word) : Instruction :=
  .R (extract w 0 6) (extract w 7 11) (extract w 12 14) (extract w 15 19) (extract w 20 24) (extract w 25 31)

/-- 41_decode.md R101. -/
def mkI (w : Word) : Instruction :=
  .I (extract w 0 6) (extract w 7 11) (extract w 12 14) (extract w 15 19) (extract w 20 31)

/-- The high immediate field of a store: `S_IMM_HI_BITS` bits from bit 25 up (30_encoding.md R49). -/
def sImmHiOf (w : Word) : SImmHi := extract w 25 (24 + Config.sImmHiBits)

/-- 41_decode.md R102. Word bit 31 is in no field. -/
def mkS (w : Word) : Instruction :=
  .S (extract w 0 6) (extract w 7 11) (extract w 12 14) (extract w 15 19) (extract w 20 24) (sImmHiOf w)

/-- 41_decode.md R103. -/
def mkB (w : Word) : Instruction :=
  .B (extract w 0 6) (extract w 7 11) (extract w 12 14) (extract w 15 19) (extract w 20 24) (extract w 25 31)

/-- 41_decode.md R104. -/
def mkU (w : Word) : Instruction := .U (extract w 0 6) (extract w 7 11) (extract w 12 31)

/-- 41_decode.md R105. -/
def mkJ (w : Word) : Instruction := .J (extract w 0 6) (extract w 7 11) (extract w 12 31)

/-- `decode(word)` (41_decode.md R90): one arm per recognised opcode (R91 to R99) and the unknown-opcode arm
(R106). -/
def decode (w : Word) : Result Instruction DecodeError :=
  match (extract w 0 6 : Opcode) with
  | 0b0110011#7 => .ok (mkR w)
  | 0b0010011#7 => .ok (mkI w)
  | 0b0000011#7 => .ok (mkI w)
  | 0b0100011#7 => .ok (mkS w)
  | 0b1100011#7 => .ok (mkB w)
  | 0b1101111#7 => .ok (mkJ w)
  | 0b1100111#7 => .ok (mkI w)
  | 0b0110111#7 => .ok (mkU w)
  | 0b1110011#7 => .ok (mkI w)
  | opc => .err (.unknownOpcode opc)

/-- The tag of a variant (10_state.md R12). -/
def Instruction.format : Instruction → Format
  | .R .. => .R | .I .. => .I | .S .. => .S | .B .. => .B | .U .. => .U | .J .. => .J

/-- The `opcode` field, present in every variant (10_state.md R12). -/
def Instruction.opcode : Instruction → Opcode
  | .R opcode .. | .I opcode .. | .S opcode .. | .B opcode .. | .U opcode .. | .J opcode .. => opcode

/-! ## The row of the opcode table a word selects -/

/-- The OP class: the key is `(funct3, funct7)` (43_opselect.md R126 to R135, R160). -/
def rowOp (rd : RegIdx) (funct3 : Funct3) (rs1 rs2 : RegIdx) (funct7 : Funct7) : Instr :=
  match funct7 with
  | 0#7 =>
    match funct3 with
    | 0#3 => .add rd rs1 rs2
    | 1#3 => .sll rd rs1 rs2
    | 2#3 => .slt rd rs1 rs2
    | 3#3 => .sltu rd rs1 rs2
    | 4#3 => .xor rd rs1 rs2
    | 5#3 => .srl rd rs1 rs2
    | 6#3 => .or rd rs1 rs2
    | 7#3 => .and rd rs1 rs2
  | 32#7 =>
    match funct3 with
    | 0#3 => .sub rd rs1 rs2
    | 5#3 => .sra rd rs1 rs2
    | _ => .noneOp rd funct3 rs1 rs2 funct7
  | _ => .noneOp rd funct3 rs1 rs2 funct7

/-- The OP-IMM class: the key is `funct3`; no bit of `imm` takes part (R136 to R143, 30_encoding.md R59). -/
def rowOpImm (rd : RegIdx) (funct3 : Funct3) (rs1 : RegIdx) (imm : BitVec 12) : Instr :=
  match funct3 with
  | 0#3 => .addi rd rs1 imm
  | 1#3 => .slli rd rs1 imm
  | 2#3 => .slti rd rs1 imm
  | 3#3 => .sltiu rd rs1 imm
  | 4#3 => .xori rd rs1 imm
  | 5#3 => .srli rd rs1 imm
  | 6#3 => .ori rd rs1 imm
  | 7#3 => .andi rd rs1 imm

/-- The LOAD class (R144 to R148, R161). -/
def rowLoad (rd : RegIdx) (funct3 : Funct3) (rs1 : RegIdx) (imm : BitVec 12) : Instr :=
  match funct3 with
  | 0#3 => .lb rd rs1 imm
  | 1#3 => .lh rd rs1 imm
  | 2#3 => .lw rd rs1 imm
  | 4#3 => .lbu rd rs1 imm
  | 5#3 => .lhu rd rs1 imm
  | _ => .noneLoad rd funct3 rs1 imm

/-- The STORE class (R149 to R151, R164). -/
def rowStore (immLo : BitVec 5) (funct3 : Funct3) (rs1 rs2 : RegIdx) (immHi : SImmHi) : Instr :=
  match funct3 with
  | 0#3 => .sb immLo rs1 rs2 immHi
  | 1#3 => .sh immLo rs1 rs2 immHi
  | 2#3 => .sw immLo rs1 rs2 immHi
  | _ => .noneStore immLo funct3 rs1 rs2 immHi

/-- The BRANCH class (R152 to R157, R165). -/
def rowBranch (immLo : BitVec 5) (funct3 : Funct3) (rs1 rs2 : RegIdx) (immHi : BitVec 7) : Instr :=
  match funct3 with
  | 0#3 => .beq immLo rs1 rs2 immHi
  | 1#3 => .bne immLo rs1 rs2 immHi
  | 4#3 => .blt immLo rs1 rs2 immHi
  | 5#3 => .bge immLo rs1 rs2 immHi
  | 6#3 => .bltu immLo rs1 rs2 immHi
  | 7#3 => .bgeu immLo rs1 rs2 immHi
  | _ => .noneBranch immLo funct3 rs1 rs2 immHi

/-- The row of the opcode table that the word selects, with its operands, or the failure: total on all 2^32
words (10_state.md R11, 30_encoding.md R57, R60). -/
def decodeInstr (w : Word) : Result Instr DecodeError :=
  match (extract w 0 6 : Opcode) with
  | 0b0110011#7 => .ok (rowOp (extract w 7 11) (extract w 12 14) (extract w 15 19) (extract w 20 24) (extract w 25 31))
  | 0b0010011#7 => .ok (rowOpImm (extract w 7 11) (extract w 12 14) (extract w 15 19) (extract w 20 31))
  | 0b0000011#7 => .ok (rowLoad (extract w 7 11) (extract w 12 14) (extract w 15 19) (extract w 20 31))
  | 0b0100011#7 => .ok (rowStore (extract w 7 11) (extract w 12 14) (extract w 15 19) (extract w 20 24) (sImmHiOf w))
  | 0b1100011#7 => .ok (rowBranch (extract w 7 11) (extract w 12 14) (extract w 15 19) (extract w 20 24) (extract w 25 31))
  | 0b1101111#7 => .ok (.jal (extract w 7 11) (extract w 12 31))
  | 0b1100111#7 => .ok (.noneJalr (extract w 7 11) (extract w 12 14) (extract w 15 19) (extract w 20 31))
  | 0b0110111#7 => .ok (.lui (extract w 7 11) (extract w 12 31))
  | 0b1110011#7 => .ok (.noneSystem (extract w 7 11) (extract w 12 14) (extract w 15 19) (extract w 20 31))
  | opc => .err (.unknownOpcode opc)

/-- The decoder on bytes, total: the instruction of the first four bytes and the bytes after them, or a
rejection by name. -/
def decodeBytes : List Byte → Result (Instr × List Byte) DecodeReject
  | b0 :: b1 :: b2 :: b3 :: rest =>
    match decodeInstr (wordOfBytes b0 b1 b2 b3) with
    | .ok i => .ok (i, rest)
    | .err (.unknownOpcode v) => .err (.unknownOpcode v)
  | _ => .err .incompleteWord

/-- The bytes of an instruction whose `nbits` table bits are `w`, every bit above them 0, as a supplier's
stream holds them. -/
def tableBytes (nbits w : Nat) : List Byte := bytesOfWord (BitVec.ofNat 32 (w % 2 ^ nbits))

/-- The instruction this decoder reads from an instruction whose bits, numbered as spec/opcode_table.json numbers
them, are `w`; none where the decoder rejects. -/
def decodeTableWord (nbits w : Nat) : Option Instr :=
  match decodeBytes (tableBytes nbits w) with
  | .ok (i, _) => some i
  | .err _ => none

/-! ## The encoder -/

/-- A field put at its `lo` position in a word of zeros (41_decode.md R107 (e)). -/
def place {n : Nat} (field : BitVec n) (lo : Nat) : Word := field.setWidth 32 <<< lo

/-- Format R (30_encoding.md R47). -/
def packR (opcode : Opcode) (rd : RegIdx) (funct3 : Funct3) (rs1 rs2 : RegIdx) (funct7 : Funct7) : Word :=
  place opcode 0 ||| place rd 7 ||| place funct3 12 ||| place rs1 15 ||| place rs2 20 ||| place funct7 25

/-- Format I (30_encoding.md R48). -/
def packI (opcode : Opcode) (rd : RegIdx) (funct3 : Funct3) (rs1 : RegIdx) (imm : BitVec 12) : Word :=
  place opcode 0 ||| place rd 7 ||| place funct3 12 ||| place rs1 15 ||| place imm 20

/-- Format S (30_encoding.md R49). Bit 31 is in no field and stays 0 (41_decode.md R107 (e); log entry 6). -/
def packS (opcode : Opcode) (immLo : BitVec 5) (funct3 : Funct3) (rs1 rs2 : RegIdx) (immHi : SImmHi) : Word :=
  place opcode 0 ||| place immLo 7 ||| place funct3 12 ||| place rs1 15 ||| place rs2 20 ||| place immHi 25

/-- Format B (30_encoding.md R50). -/
def packB (opcode : Opcode) (immLo : BitVec 5) (funct3 : Funct3) (rs1 rs2 : RegIdx) (immHi : BitVec 7) : Word :=
  place opcode 0 ||| place immLo 7 ||| place funct3 12 ||| place rs1 15 ||| place rs2 20 ||| place immHi 25

/-- Formats U and J (30_encoding.md R51, R52). -/
def packU (opcode : Opcode) (rd : RegIdx) (imm : BitVec 20) : Word :=
  place opcode 0 ||| place rd 7 ||| place imm 12

/-- Each field of a variant put back at its position (41_decode.md R107 (e)). -/
def encodeVariant : Instruction → Word
  | .R opcode rd funct3 rs1 rs2 funct7 => packR opcode rd funct3 rs1 rs2 funct7
  | .I opcode rd funct3 rs1 imm => packI opcode rd funct3 rs1 imm
  | .S opcode immLo funct3 rs1 rs2 immHi => packS opcode immLo funct3 rs1 rs2 immHi
  | .B opcode immLo funct3 rs1 rs2 immHi => packB opcode immLo funct3 rs1 rs2 immHi
  | .U opcode rd imm => packU opcode rd imm
  | .J opcode rd imm => packU opcode rd imm

/-- The variant of 10_state.md R12 that an instruction of a row stands for: the row's fixed fields (30_encoding.md
R60) and its operands. -/
def Instr.variant : Instr → Instruction
  | .add rd rs1 rs2 => .R 0b0110011 rd 0b000 rs1 rs2 0b0000000
  | .sub rd rs1 rs2 => .R 0b0110011 rd 0b000 rs1 rs2 0b0100000
  | .xor rd rs1 rs2 => .R 0b0110011 rd 0b100 rs1 rs2 0b0000000
  | .or rd rs1 rs2 => .R 0b0110011 rd 0b110 rs1 rs2 0b0000000
  | .and rd rs1 rs2 => .R 0b0110011 rd 0b111 rs1 rs2 0b0000000
  | .sll rd rs1 rs2 => .R 0b0110011 rd 0b001 rs1 rs2 0b0000000
  | .srl rd rs1 rs2 => .R 0b0110011 rd 0b101 rs1 rs2 0b0000000
  | .sra rd rs1 rs2 => .R 0b0110011 rd 0b101 rs1 rs2 0b0100000
  | .slt rd rs1 rs2 => .R 0b0110011 rd 0b010 rs1 rs2 0b0000000
  | .sltu rd rs1 rs2 => .R 0b0110011 rd 0b011 rs1 rs2 0b0000000
  | .addi rd rs1 imm => .I 0b0010011 rd 0b000 rs1 imm
  | .xori rd rs1 imm => .I 0b0010011 rd 0b100 rs1 imm
  | .ori rd rs1 imm => .I 0b0010011 rd 0b110 rs1 imm
  | .andi rd rs1 imm => .I 0b0010011 rd 0b111 rs1 imm
  | .slli rd rs1 imm => .I 0b0010011 rd 0b001 rs1 imm
  | .srli rd rs1 imm => .I 0b0010011 rd 0b101 rs1 imm
  | .slti rd rs1 imm => .I 0b0010011 rd 0b010 rs1 imm
  | .sltiu rd rs1 imm => .I 0b0010011 rd 0b011 rs1 imm
  | .lb rd rs1 imm => .I 0b0000011 rd 0b000 rs1 imm
  | .lh rd rs1 imm => .I 0b0000011 rd 0b001 rs1 imm
  | .lw rd rs1 imm => .I 0b0000011 rd 0b010 rs1 imm
  | .lbu rd rs1 imm => .I 0b0000011 rd 0b100 rs1 imm
  | .lhu rd rs1 imm => .I 0b0000011 rd 0b101 rs1 imm
  | .sb immLo rs1 rs2 immHi => .S 0b0100011 immLo 0b000 rs1 rs2 immHi
  | .sh immLo rs1 rs2 immHi => .S 0b0100011 immLo 0b001 rs1 rs2 immHi
  | .sw immLo rs1 rs2 immHi => .S 0b0100011 immLo 0b010 rs1 rs2 immHi
  | .beq immLo rs1 rs2 immHi => .B 0b1100011 immLo 0b000 rs1 rs2 immHi
  | .bne immLo rs1 rs2 immHi => .B 0b1100011 immLo 0b001 rs1 rs2 immHi
  | .blt immLo rs1 rs2 immHi => .B 0b1100011 immLo 0b100 rs1 rs2 immHi
  | .bge immLo rs1 rs2 immHi => .B 0b1100011 immLo 0b101 rs1 rs2 immHi
  | .bltu immLo rs1 rs2 immHi => .B 0b1100011 immLo 0b110 rs1 rs2 immHi
  | .bgeu immLo rs1 rs2 immHi => .B 0b1100011 immLo 0b111 rs1 rs2 immHi
  | .lui rd imm => .U 0b0110111 rd imm
  | .jal rd imm => .J 0b1101111 rd imm
  | .noneOp rd funct3 rs1 rs2 funct7 => .R 0b0110011 rd funct3 rs1 rs2 funct7
  | .noneLoad rd funct3 rs1 imm => .I 0b0000011 rd funct3 rs1 imm
  | .noneJalr rd funct3 rs1 imm => .I 0b1100111 rd funct3 rs1 imm
  | .noneSystem rd funct3 rs1 imm => .I 0b1110011 rd funct3 rs1 imm
  | .noneStore immLo funct3 rs1 rs2 immHi => .S 0b0100011 immLo funct3 rs1 rs2 immHi
  | .noneBranch immLo funct3 rs1 rs2 immHi => .B 0b1100011 immLo funct3 rs1 rs2 immHi

/-- The word of a well-formed instruction. -/
def encode (i : Instr) : Word := encodeVariant i.variant

/-! ## The opcode table as the spec prints it -/

/-- The row's mnemonic in spec/opcode_table.json, letter for letter. -/
def Instr.mnemonic : Instr → String
  | .add .. => "add" | .sub .. => "sub" | .xor .. => "xor" | .or .. => "or" | .and .. => "and"
  | .sll .. => "sll" | .srl .. => "srl" | .sra .. => "sra" | .slt .. => "slt" | .sltu .. => "sltu"
  | .addi .. => "addi" | .xori .. => "xori" | .ori .. => "ori" | .andi .. => "andi"
  | .slli .. => "slli" | .srli .. => "srli" | .slti .. => "slti" | .sltiu .. => "sltiu"
  | .lb .. => "lb" | .lh .. => "lh" | .lw .. => "lw" | .lbu .. => "lbu" | .lhu .. => "lhu"
  | .sb .. => "sb" | .sh .. => "sh" | .sw .. => "sw"
  | .beq .. => "beq" | .bne .. => "bne" | .blt .. => "blt" | .bge .. => "bge" | .bltu .. => "bltu"
  | .bgeu .. => "bgeu"
  | .lui .. => "lui" | .jal .. => "jal"
  | .noneOp .. => "none.op" | .noneLoad .. => "none.load" | .noneJalr .. => "none.jalr"
  | .noneSystem .. => "none.system" | .noneStore .. => "none.store" | .noneBranch .. => "none.branch"

/-- The 34 mnemonic rows, `match` and `mask` as spec/opcode_table.json gives them (30_encoding.md R60). -/
def mnemonicRows : List TableRow :=
  [⟨"add", 0xFE00707F, 0x00000033, false⟩, ⟨"sub", 0xFE00707F, 0x40000033, false⟩,
   ⟨"xor", 0xFE00707F, 0x00004033, false⟩, ⟨"or", 0xFE00707F, 0x00006033, false⟩,
   ⟨"and", 0xFE00707F, 0x00007033, false⟩, ⟨"sll", 0xFE00707F, 0x00001033, false⟩,
   ⟨"srl", 0xFE00707F, 0x00005033, false⟩, ⟨"sra", 0xFE00707F, 0x40005033, false⟩,
   ⟨"slt", 0xFE00707F, 0x00002033, false⟩, ⟨"sltu", 0xFE00707F, 0x00003033, false⟩] ++
  [⟨"addi", 0x0000707F, 0x00000013, false⟩, ⟨"xori", 0x0000707F, 0x00004013, false⟩,
   ⟨"ori", 0x0000707F, 0x00006013, false⟩, ⟨"andi", 0x0000707F, 0x00007013, false⟩,
   ⟨"slli", 0x0000707F, 0x00001013, false⟩, ⟨"srli", 0x0000707F, 0x00005013, false⟩,
   ⟨"slti", 0x0000707F, 0x00002013, false⟩, ⟨"sltiu", 0x0000707F, 0x00003013, false⟩] ++
  [⟨"lb", 0x0000707F, 0x00000003, false⟩, ⟨"lh", 0x0000707F, 0x00001003, false⟩,
   ⟨"lw", 0x0000707F, 0x00002003, false⟩, ⟨"lbu", 0x0000707F, 0x00004003, false⟩,
   ⟨"lhu", 0x0000707F, 0x00005003, false⟩,
   ⟨"sb", 0x0000707F, 0x00000023, false⟩, ⟨"sh", 0x0000707F, 0x00001023, false⟩,
   ⟨"sw", 0x0000707F, 0x00002023, false⟩] ++
  [⟨"beq", 0x0000707F, 0x00000063, false⟩, ⟨"bne", 0x0000707F, 0x00001063, false⟩,
   ⟨"blt", 0x0000707F, 0x00004063, false⟩, ⟨"bge", 0x0000707F, 0x00005063, false⟩,
   ⟨"bltu", 0x0000707F, 0x00006063, false⟩, ⟨"bgeu", 0x0000707F, 0x00007063, false⟩,
   ⟨"lui", 0x0000007F, 0x00000037, false⟩, ⟨"jal", 0x0000007F, 0x0000006F, false⟩]

/-- The six fallback rows (30_encoding.md R60). -/
def fallbackRows : List TableRow :=
  [⟨"none.op", 0x0000007F, 0x00000033, true⟩, ⟨"none.load", 0x0000007F, 0x00000003, true⟩,
   ⟨"none.jalr", 0x0000007F, 0x00000067, true⟩, ⟨"none.system", 0x0000007F, 0x00000073, true⟩,
   ⟨"none.store", 0x0000007F, 0x00000023, true⟩, ⟨"none.branch", 0x0000007F, 0x00000063, true⟩]

/-- A word selects a row when `(w & mask) = match`. -/
def TableRow.selects (r : TableRow) (w : Word) : Bool := (w &&& r.mask) == r.bits

/-- The row a word selects by mask and match: a mnemonic row if one is selected, else the fallback row of its
opcode; none is the illegal class (30_encoding.md R57, R60). -/
def tableRowOf (w : Word) : Option TableRow :=
  (mnemonicRows.find? (·.selects w)).or (fallbackRows.find? (·.selects w))

end Sys2Proof
end

