-- ==== Sys2Proof/Machine/Immediates.lean ====
section
/-! DEFINITION. Immediate reassembly (42_immediates.md): one helper per format, each a function of the raw
immediate fields of its own variant and of nothing else (R118). All results are unsigned patterns. -/

namespace Sys2Proof

/-- `b_imm = { imm_hi[6], imm_lo[0], imm_hi[5:0], imm_lo[4:1], 0 }` (42_immediates.md R110). -/
def bImm (immLo : BitVec 5) (immHi : BitVec 7) : BitVec 13 :=
  ((extract (asWord immHi) 6 6 : BitVec 1) ++ (extract (asWord immLo) 0 0 : BitVec 1) ++
    (extract (asWord immHi) 0 5 : BitVec 6) ++ (extract (asWord immLo) 1 4 : BitVec 4) ++ (0 : BitVec 1)).cast (by decide)

/-- `s_imm = zext_12({ imm_hi, imm_lo })` (42_immediates.md R113; log entry 9). -/
def sImm (immLo : BitVec 5) (immHi : SImmHi) : BitVec 12 := (immHi ++ immLo).setWidth 12

/-- `j_imm = { imm[19], imm[7:0], imm[8], imm[18:9], 0 }` (42_immediates.md R114; log entry 10). -/
def jImm (imm : BitVec 20) : BitVec 21 :=
  ((extract (asWord imm) 19 19 : BitVec 1) ++ (extract (asWord imm) 0 7 : BitVec 8) ++
    (extract (asWord imm) 8 8 : BitVec 1) ++ (extract (asWord imm) 9 18 : BitVec 10) ++ (0 : BitVec 1)).cast (by decide)

/-- `b_imm` is present iff the instruction is a B variant (10_state.md R14). -/
def bImmOf : Instruction → Option (BitVec 13)
  | .B _ immLo _ _ _ immHi => some (bImm immLo immHi)
  | .R .. | .I .. | .S .. | .U .. | .J .. => none

/-- `s_imm` is present iff the instruction is an S variant (10_state.md R14). -/
def sImmOf : Instruction → Option (BitVec 12)
  | .S _ immLo _ _ _ immHi => some (sImm immLo immHi)
  | .R .. | .I .. | .B .. | .U .. | .J .. => none

/-- `j_imm` is present iff the instruction is a J variant (10_state.md R14). -/
def jImmOf : Instruction → Option (BitVec 21)
  | .J _ _ imm => some (jImm imm)
  | .R .. | .I .. | .S .. | .B .. | .U .. => none

/-! Sign-bit positions, stated beside the values for a consumer (42_immediates.md R111, R113, R114, R115,
R118). `U.imm` has none. -/

def iImmSignBit : Nat := 11

def sImmSignBit : Nat := 11

def bImmSignBit : Nat := 12

def jImmSignBit : Nat := 20

/-- What a CONSUMER outside the block computes when it wants the signed reading, `v - 2^(p+1) * v[p]` with `p` the
sign-bit position (42_immediates.md R111, R114, R115; 93_implementation_defined.md U9, G9). Nothing in the block
calls it. -/
def consumerSigned {n : Nat} (v : BitVec n) (signBit : Nat) : Int :=
  (v.toNat : Int) - 2 ^ (signBit + 1) * (if v.getLsbD signBit then 1 else 0)

end Sys2Proof
end

