-- ==== Sys2Proof/Machine/Operands.lean ====
section
/-! DEFINITION. Operand forms: decimal numerals, register operands, the operand shapes of the printed lines
(30_encoding.md R61, 44_render.md R181 to R189), and the register-name table (10_state.md R20). -/

namespace Sys2Proof

/-- A decimal digit, `0` to `9`. -/
def digit (d : Nat) : Char := Char.ofNat (48 + d % 10)

/-- The numeral of `v` before `tail`: `fuel` bounds the number of digits. -/
def decDigits : Nat → Nat → List Char → List Char
  | 0, _, tail => tail
  | fuel + 1, v, tail => if v < 10 then digit v :: tail else decDigits fuel (v / 10) (digit v :: tail)

/-- `dec(v)`: most significant digit first, no leading zeros, no sign, zero is `0` (44_render.md R181). A number
has at most as many digits as one more than its value, which is the fuel given. -/
def dec (v : Nat) : String := String.ofList (decDigits (v + 1) v [])

/-- `reg(i) = "x" ++ dec(i)` (44_render.md R182). -/
def reg (i : RegIdx) : String := "x" ++ dec i.toNat

/-- `mn(op)`: the name in lower-case letters (44_render.md R181); `none` has no mnemonic and no line uses its
empty name. -/
def mn : Op → String
  | .add => "add" | .sub => "sub" | .xor => "xor" | .or => "or" | .and => "and"
  | .sll => "sll" | .srl => "srl" | .sra => "sra" | .slt => "slt" | .sltu => "sltu"
  | .addi => "addi" | .xori => "xori" | .ori => "ori" | .andi => "andi"
  | .slli => "slli" | .srli => "srli" | .slti => "slti" | .sltiu => "sltiu"
  | .lb => "lb" | .lh => "lh" | .lw => "lw" | .lbu => "lbu" | .lhu => "lhu"
  | .sb => "sb" | .sh => "sh" | .sw => "sw"
  | .beq => "beq" | .bne => "bne" | .blt => "blt" | .bge => "bge" | .bltu => "bltu" | .bgeu => "bgeu"
  | .lui => "lui" | .jal => "jal"
  | .none => ""

/-- `<mnemonic> x<rd>, x<rs1>, x<rs2>` (44_render.md R183). -/
def lineRegRegReg (op : Op) (rd rs1 rs2 : RegIdx) : String :=
  mn op ++ " " ++ reg rd ++ ", " ++ reg rs1 ++ ", " ++ reg rs2

/-- `<mnemonic> x<a>, x<b>, <number>`: the I arithmetic template (44_render.md R184) with `rd, rs1, imm`, and the
branch template (R187) with `rs1, rs2, b_imm`. -/
def lineRegRegNum (op : Op) (a b : RegIdx) (number : Nat) : String :=
  mn op ++ " " ++ reg a ++ ", " ++ reg b ++ ", " ++ dec number

/-- `<mnemonic> x<a>, <offset>(x<base>)`: the load template (44_render.md R185) with `rd`, and the store template
(R186) with `rs2`. -/
def lineRegMem (op : Op) (a : RegIdx) (offset : Nat) (base : RegIdx) : String :=
  mn op ++ " " ++ reg a ++ ", " ++ dec offset ++ "(" ++ reg base ++ ")"

/-- `<mnemonic> x<rd>, <number>`: `lui` and `jal` (44_render.md R188, R189). -/
def lineRegNum (op : Op) (rd : RegIdx) (number : Nat) : String :=
  mn op ++ " " ++ reg rd ++ ", " ++ dec number

/-- The 32 primary names in index order (10_state.md R20; log entry 11). A constant: no input can write it. -/
def regnames : List String :=
  ["zero", "ra", "sp", "gp", "tp", "t0", "t1", "t2", "s0", "s1", "a0", "a1", "a2", "a3", "a4", "a5"] ++
  ["a6", "a7", "s2", "s3", "s4", "s5", "s6", "s7", "s8", "s9", "s10", "s11", "t3", "t4", "t5", "t6"]

/-- `regname(i)`, total over the 5-bit indices (10_state.md R20). No rendered line uses it (44_render.md R193); a
consumer may call it on `rd`, `rs1` or `rs2`. -/
def regname (i : RegIdx) : String :=
  regnames[i.toNat]'(by have h := i.isLt; simpa [regnames] using h)

/-- The second name of an index, where it has one: `fp` for 8, the only one (10_state.md R20). -/
def regnameSecond (i : RegIdx) : Option String := if i = 8 then some "fp" else none

end Sys2Proof
end

