-- ==== Sys2Proof/Machine/Render.lean ====
section
/-! DEFINITION. Operation selection (43_opselect.md R125), text rendering (44_render.md) and their composition
with `decode` into the block's one function (10_state.md R14): the spec's function chain, as the spec composes
it. The meanings of the instructions (Machine/<Family>.lean) are written per row of the opcode table; that the two agree
is an obligation. -/

namespace Sys2Proof

/-- `select` on an R variant: the key is `(funct3, funct7)`. -/
def selectR (funct3 : Funct3) (funct7 : Funct7) : Op :=
  if (funct3, funct7) = (0, 0) then .add
  else if (funct3, funct7) = (0, 32) then .sub
  else if (funct3, funct7) = (4, 0) then .xor
  else if (funct3, funct7) = (6, 0) then .or
  else if (funct3, funct7) = (7, 0) then .and
  else if (funct3, funct7) = (1, 0) then .sll
  else if (funct3, funct7) = (5, 0) then .srl
  else if (funct3, funct7) = (5, 32) then .sra
  else if (funct3, funct7) = (2, 0) then .slt
  else if (funct3, funct7) = (3, 0) then .sltu
  else .none

/-- `select` on an I variant: the key is `(opcode, funct3)`; no bit of `imm` takes part (log entry 7). -/
def selectI (opcode : Opcode) (funct3 : Funct3) : Op :=
  if (opcode, funct3) = (19, 0) then .addi
  else if (opcode, funct3) = (19, 4) then .xori
  else if (opcode, funct3) = (19, 6) then .ori
  else if (opcode, funct3) = (19, 7) then .andi
  else if (opcode, funct3) = (19, 1) then .slli
  else if (opcode, funct3) = (19, 5) then .srli
  else if (opcode, funct3) = (19, 2) then .slti
  else if (opcode, funct3) = (19, 3) then .sltiu
  else if (opcode, funct3) = (3, 0) then .lb
  else if (opcode, funct3) = (3, 1) then .lh
  else if (opcode, funct3) = (3, 2) then .lw
  else if (opcode, funct3) = (3, 4) then .lbu
  else if (opcode, funct3) = (3, 5) then .lhu
  else .none

/-- `select` on an S variant: the key is `funct3`. -/
def selectS (funct3 : Funct3) : Op :=
  if funct3 = 0 then .sb else if funct3 = 1 then .sh else if funct3 = 2 then .sw else .none

/-- `select` on a B variant: the key is `funct3`. -/
def selectB (funct3 : Funct3) : Op :=
  if funct3 = 0 then .beq else if funct3 = 1 then .bne else if funct3 = 4 then .blt
  else if funct3 = 5 then .bge else if funct3 = 6 then .bltu else if funct3 = 7 then .bgeu else .none

/-- `select(instr)` (43_opselect.md R125; R158 and R159 for U and J). Total on every `Instruction` value, those
`decode` never produces too (R166; 93_implementation_defined.md U13). -/
def select : Instruction → Op
  | .R _ _ funct3 _ _ funct7 => selectR funct3 funct7
  | .I opcode _ funct3 _ _ => selectI opcode funct3
  | .S _ _ funct3 _ _ _ => selectS funct3
  | .B _ _ funct3 _ _ _ => selectB funct3
  | .U .. => .lui
  | .J .. => .jal

/-- `<name>: <dec(value)>`, one field of a dump. -/
def dumpField (name : String) {n : Nat} (v : BitVec n) : String := name ++ ": " ++ dec v.toNat

/-- The variant letter, a space, an opening brace, a space, the fields separated by comma and space, a space and a
closing brace (characters 123 and 125). -/
def dumpOf (letter : String) (fields : List String) : String :=
  letter ++ " " ++ String.ofList [Char.ofNat 123] ++ " " ++ String.intercalate ", " fields ++ " " ++
    String.ofList [Char.ofNat 125]

/-- `dump(instr)`, the generic dump at its default text (44_render.md R190): the raw fields in the order of
10_state.md R12. This is the spec's parameter `GenericDump` (00_scope.md R5 (d)); log entry 8. -/
def dump : Instruction → String
  | .R opcode rd funct3 rs1 rs2 funct7 =>
    dumpOf "R" [dumpField "opcode" opcode, dumpField "rd" rd, dumpField "funct3" funct3, dumpField "rs1" rs1,
      dumpField "rs2" rs2, dumpField "funct7" funct7]
  | .I opcode rd funct3 rs1 imm =>
    dumpOf "I" [dumpField "opcode" opcode, dumpField "rd" rd, dumpField "funct3" funct3, dumpField "rs1" rs1,
      dumpField "imm" imm]
  | .S opcode immLo funct3 rs1 rs2 immHi =>
    dumpOf "S" [dumpField "opcode" opcode, dumpField "imm_lo" immLo, dumpField "funct3" funct3, dumpField "rs1" rs1,
      dumpField "rs2" rs2, dumpField "imm_hi" immHi]
  | .B opcode immLo funct3 rs1 rs2 immHi =>
    dumpOf "B" [dumpField "opcode" opcode, dumpField "imm_lo" immLo, dumpField "funct3" funct3, dumpField "rs1" rs1,
      dumpField "rs2" rs2, dumpField "imm_hi" immHi]
  | .U opcode rd imm => dumpOf "U" [dumpField "opcode" opcode, dumpField "rd" rd, dumpField "imm" imm]
  | .J opcode rd imm => dumpOf "J" [dumpField "opcode" opcode, dumpField "rd" rd, dumpField "imm" imm]

/-- `render(instr)` (44_render.md R180): the template of the selected operation, the dump where none is
selected. `select` alone decides between the two; the variant decides the template. -/
def render (v : Instruction) : String :=
  match select v with
  | .none => dump v
  | op =>
    match v with
    | .R _ rd _ rs1 rs2 _ => lineRegRegReg op rd rs1 rs2
    | .I _ rd _ rs1 imm =>
      match op with
      | .lb | .lh | .lw | .lbu | .lhu => lineRegMem op rd imm.toNat rs1
      | _ => lineRegRegNum op rd rs1 imm.toNat
    | .S _ immLo _ rs1 rs2 immHi => lineRegMem op rs2 (sImm immLo immHi).toNat rs1
    | .B _ immLo _ rs1 rs2 immHi => lineRegRegNum op rs1 rs2 (bImm immLo immHi).toNat
    | .U _ rd imm => lineRegNum op rd imm.toNat
    | .J _ rd imm => lineRegNum op rd (jImm imm).toNat

/-- `disasm(word)`: `decode` followed by `render` (44_render.md R191). -/
def disasm (w : Word) : Result String DecodeError :=
  match decode w with
  | .ok v => .ok (render v)
  | .err e => .err e

/-- `front_end(word)`, the block's outputs for one word (10_state.md R14). -/
def frontEnd (w : Word) : CallResult :=
  match decode w with
  | .err e => .err e
  | .ok v => .ok ⟨v, select v, bImmOf v, sImmOf v, jImmOf v, render v⟩

end Sys2Proof
end

