-- ==== Sys2Proof/Machine/State.lean ====
section
/-! DEFINITION. The machine's state. THE BLOCK HAS NO PERSISTENT STATE (10_state.md R10, R16 to R23): no register, no
program counter, no flag, no mode, no memory. What stands here are the values at its boundary and the words its
supplier has still to present; all three fields are the model's own (log entry 1). -/

namespace Sys2Proof.Machine

/-- One moment between two calls. -/
structure State where
  /-- The word on the block's input (10_state.md R11). -/
  input   : Word
  /-- The result of the last call (10_state.md R14). -/
  output  : CallResult
  /-- The words the supplier has still to present, first word first (20_memory.md R41). -/
  pending : List Word
  deriving DecidableEq, Repr

/-- No step of this hardware faults: the only failure, `UnknownOpcode`, is a returned value after which the block
goes on (60_exceptions.md R210, R214, R215; log entry 4), and every call returns (70_reset_and_hazards.md R235).
The type therefore has no constructor. -/
inductive Fault
  deriving DecidableEq, Repr

/-- Why a step has no meaning. -/
inductive Refusal where
  /-- Raised by an arm of `exec` whose instruction is not modelled yet (safe: the machine stops); no arm raises it. -/
  | notModelled (mnemonic : String)
  deriving DecidableEq, Repr

/-- There is no reset and nothing to reset (70_reset_and_hazards.md R230). The first moment: an input word, 0 by
DESIGN CHOICE (log entry 2), the output that is its function (10_state.md R26 (b)), nothing pending. -/
def State.reset : State :=
  { input := 0, output := .err (.unknownOpcode 0), pending := [] }

end Sys2Proof.Machine
end

