-- ==== Sys2Proof/Machine/Ops.lean ====
section
/-! DEFINITION. The named operations over the state: presenting and taking a word, delivering a result, raising the
one exception, and the shared meanings of the families. The block reads and writes no memory and no register
(20_memory.md R30, 10_state.md R16), so there is no operation over either. -/

namespace Sys2Proof.Machine

abbrev StepOutcome := Host.Outcome State Fault Refusal

/-! ## The boundary -/

/-- The supplier adds words to the sequence it presents (20_memory.md R41). -/
def State.supply (ws : List Word) (s : State) : State := { s with pending := s.pending ++ ws }

/-- The supplier adds the words it assembles, little-endian, from a byte stream (20_memory.md R31). -/
def State.supplyBytes (bs : List Byte) (s : State) : State := s.supply (wordsOfBytes bs)

/-- The next word is put on the input; while none is pending the input is held (10_state.md R24; log entry 3). -/
def State.accept (s : State) : State :=
  match s.pending with
  | [] => s
  | w :: ws => { s with input := w, pending := ws }

/-- A call returns a bundle. -/
def State.deliver (d : Decoded) (s : State) : State := { s with output := .ok d }

/-- TAKING THE ONE EXCEPTION: the call returns `Err(UnknownOpcode(v))`. Nothing is saved, no mode changes, control
goes nowhere (60_exceptions.md R210, R214); there is no trap return, and nothing to return from, because the block is
after the call what it was before it (R215). -/
def State.raiseUnknownOpcode (v : Opcode) (s : State) : State := { s with output := .err (.unknownOpcode v) }

/-! ## The families' shared meanings -/

/-- The bundle of a variant with its operation and its line (10_state.md R14). -/
def bundle (v : Instruction) (op : Op) (text : String) : Decoded :=
  { instr := v, op := op, bImm := bImmOf v, sImm := sImmOf v, jImm := jImmOf v, text := text }

/-- Format R, opcode 0110011 (43_opselect.md section 2, 44_render.md R183). -/
def answerOp (op : Op) (funct3 : Funct3) (funct7 : Funct7) (rd rs1 rs2 : RegIdx) (s : State) : StepOutcome :=
  .next (s.deliver (bundle (.R 0b0110011 rd funct3 rs1 rs2 funct7) op (lineRegRegReg op rd rs1 rs2)))

/-- Format I, opcode 0010011 (43_opselect.md section 3, 44_render.md R184): `imm` is printed raw and unsigned. -/
def answerOpImm (op : Op) (funct3 : Funct3) (rd rs1 : RegIdx) (imm : BitVec 12) (s : State) : StepOutcome :=
  .next (s.deliver (bundle (.I 0b0010011 rd funct3 rs1 imm) op (lineRegRegNum op rd rs1 imm.toNat)))

/-- Format I, opcode 0000011 (43_opselect.md section 4, 44_render.md R185). -/
def answerLoad (op : Op) (funct3 : Funct3) (rd rs1 : RegIdx) (imm : BitVec 12) (s : State) : StepOutcome :=
  .next (s.deliver (bundle (.I 0b0000011 rd funct3 rs1 imm) op (lineRegMem op rd imm.toNat rs1)))

/-- Format S, opcode 0100011 (43_opselect.md section 5, 44_render.md R186): `rs2` is printed first, the offset is
`s_imm`. -/
def answerStore (op : Op) (funct3 : Funct3) (immLo : BitVec 5) (rs1 rs2 : RegIdx) (immHi : SImmHi) (s : State) :
    StepOutcome :=
  .next (s.deliver (bundle (.S 0b0100011 immLo funct3 rs1 rs2 immHi) op
    (lineRegMem op rs2 (sImm immLo immHi).toNat rs1)))

/-- Format B, opcode 1100011 (43_opselect.md section 6, 44_render.md R187): the last operand is `b_imm`. -/
def answerBranch (op : Op) (funct3 : Funct3) (immLo : BitVec 5) (rs1 rs2 : RegIdx) (immHi : BitVec 7) (s : State) :
    StepOutcome :=
  .next (s.deliver (bundle (.B 0b1100011 immLo funct3 rs1 rs2 immHi) op
    (lineRegRegNum op rs1 rs2 (bImm immLo immHi).toNat)))

/-- A fallback class: no operation, the generic dump, nothing raised (43_opselect.md section 8, 60_exceptions.md
R211). -/
def answerDump (v : Instruction) (s : State) : StepOutcome := .next (s.deliver (bundle v .none (dump v)))

end Sys2Proof.Machine
end

