-- ==== Sys2Proof/Machine/Branch.lean ====
section
/-! DEFINITION. Format B, opcode 1100011: the six branch mnemonics and their fallback class (43_opselect.md R152 to R157, R165). The
block computes no target and takes no branch (10_state.md R17). -/

namespace Sys2Proof.Machine

/-- 43_opselect.md R152. -/
def execBeq (immLo : BitVec 5) (rs1 rs2 : RegIdx) (immHi : BitVec 7) (s : State) : StepOutcome :=
  answerBranch .beq 0b000 immLo rs1 rs2 immHi s

/-- 43_opselect.md R153. -/
def execBne (immLo : BitVec 5) (rs1 rs2 : RegIdx) (immHi : BitVec 7) (s : State) : StepOutcome :=
  answerBranch .bne 0b001 immLo rs1 rs2 immHi s

/-- 43_opselect.md R154. -/
def execBlt (immLo : BitVec 5) (rs1 rs2 : RegIdx) (immHi : BitVec 7) (s : State) : StepOutcome :=
  answerBranch .blt 0b100 immLo rs1 rs2 immHi s

/-- 43_opselect.md R155. -/
def execBge (immLo : BitVec 5) (rs1 rs2 : RegIdx) (immHi : BitVec 7) (s : State) : StepOutcome :=
  answerBranch .bge 0b101 immLo rs1 rs2 immHi s

/-- 43_opselect.md R156. -/
def execBltu (immLo : BitVec 5) (rs1 rs2 : RegIdx) (immHi : BitVec 7) (s : State) : StepOutcome :=
  answerBranch .bltu 0b110 immLo rs1 rs2 immHi s

/-- 43_opselect.md R157. -/
def execBgeu (immLo : BitVec 5) (rs1 rs2 : RegIdx) (immHi : BitVec 7) (s : State) : StepOutcome :=
  answerBranch .bgeu 0b111 immLo rs1 rs2 immHi s

/-- 43_opselect.md R165: `funct3` 2 or 3. `b_imm` is delivered all the same (42_immediates.md R112 (d)). -/
def execNoneBranch (immLo : BitVec 5) (funct3 : Funct3) (rs1 rs2 : RegIdx) (immHi : BitVec 7) (s : State) :
    StepOutcome :=
  answerDump (.B 0b1100011 immLo funct3 rs1 rs2 immHi) s

end Sys2Proof.Machine
end

