-- ==== Sys2Proof/Machine/JalrSystem.lean ====
section
/-! DEFINITION. Format I, opcodes 1100111 and 1110011: the JALR and SYSTEM classes, which select no mnemonic at any `funct3`
(43_opselect.md R162, R163). A SYSTEM word raises nothing here and `imm` is delivered raw (41_decode.md R99,
60_exceptions.md R211, R218). -/

namespace Sys2Proof.Machine

/-- 43_opselect.md R162. -/
def execNoneJalr (rd : RegIdx) (funct3 : Funct3) (rs1 : RegIdx) (imm : BitVec 12) (s : State) : StepOutcome :=
  answerDump (.I 0b1100111 rd funct3 rs1 imm) s

/-- 43_opselect.md R163. -/
def execNoneSystem (rd : RegIdx) (funct3 : Funct3) (rs1 : RegIdx) (imm : BitVec 12) (s : State) : StepOutcome :=
  answerDump (.I 0b1110011 rd funct3 rs1 imm) s

end Sys2Proof.Machine
end

