-- ==== Sys2Proof/Machine/Load.lean ====
section
/-! DEFINITION. Format I, opcode 0000011: the five load mnemonics and their fallback class (43_opselect.md R144 to R148, R161). The
block forms no address and reads no memory (20_memory.md R30). -/

namespace Sys2Proof.Machine

/-- 43_opselect.md R144. -/
def execLb (rd rs1 : RegIdx) (imm : BitVec 12) (s : State) : StepOutcome := answerLoad .lb 0b000 rd rs1 imm s

/-- 43_opselect.md R145. -/
def execLh (rd rs1 : RegIdx) (imm : BitVec 12) (s : State) : StepOutcome := answerLoad .lh 0b001 rd rs1 imm s

/-- 43_opselect.md R146. -/
def execLw (rd rs1 : RegIdx) (imm : BitVec 12) (s : State) : StepOutcome := answerLoad .lw 0b010 rd rs1 imm s

/-- 43_opselect.md R147. -/
def execLbu (rd rs1 : RegIdx) (imm : BitVec 12) (s : State) : StepOutcome := answerLoad .lbu 0b100 rd rs1 imm s

/-- 43_opselect.md R148. -/
def execLhu (rd rs1 : RegIdx) (imm : BitVec 12) (s : State) : StepOutcome := answerLoad .lhu 0b101 rd rs1 imm s

/-- 43_opselect.md R161: `funct3` 3, 6 or 7. -/
def execNoneLoad (rd : RegIdx) (funct3 : Funct3) (rs1 : RegIdx) (imm : BitVec 12) (s : State) : StepOutcome :=
  answerDump (.I 0b0000011 rd funct3 rs1 imm) s

end Sys2Proof.Machine
end

