-- ==== Sys2Proof/Machine/RegImm.lean ====
section
/-! DEFINITION. Format I, opcode 0010011: the eight register-immediate mnemonics (43_opselect.md R136 to R143). They use all eight
`funct3` values, so the class has no fallback. -/

namespace Sys2Proof.Machine

/-- 43_opselect.md R136. -/
def execAddi (rd rs1 : RegIdx) (imm : BitVec 12) (s : State) : StepOutcome := answerOpImm .addi 0b000 rd rs1 imm s

/-- 43_opselect.md R137. -/
def execXori (rd rs1 : RegIdx) (imm : BitVec 12) (s : State) : StepOutcome := answerOpImm .xori 0b100 rd rs1 imm s

/-- 43_opselect.md R138. -/
def execOri (rd rs1 : RegIdx) (imm : BitVec 12) (s : State) : StepOutcome := answerOpImm .ori 0b110 rd rs1 imm s

/-- 43_opselect.md R139. -/
def execAndi (rd rs1 : RegIdx) (imm : BitVec 12) (s : State) : StepOutcome := answerOpImm .andi 0b111 rd rs1 imm s

/-- 43_opselect.md R140: the whole 12-bit `imm` is delivered and printed, its upper bits unchecked. -/
def execSlli (rd rs1 : RegIdx) (imm : BitVec 12) (s : State) : StepOutcome := answerOpImm .slli 0b001 rd rs1 imm s

/-- 43_opselect.md R141: the RISC-V `srai` pattern selects `srli` too (log entry 7). -/
def execSrli (rd rs1 : RegIdx) (imm : BitVec 12) (s : State) : StepOutcome := answerOpImm .srli 0b101 rd rs1 imm s

/-- 43_opselect.md R142. -/
def execSlti (rd rs1 : RegIdx) (imm : BitVec 12) (s : State) : StepOutcome := answerOpImm .slti 0b010 rd rs1 imm s

/-- 43_opselect.md R143. -/
def execSltiu (rd rs1 : RegIdx) (imm : BitVec 12) (s : State) : StepOutcome := answerOpImm .sltiu 0b011 rd rs1 imm s

end Sys2Proof.Machine
end

