-- ==== Sys2Proof/Machine/RegReg.lean ====
section
/-! DEFINITION. Format R, opcode 0110011: the ten register-register mnemonics and their fallback class (43_opselect.md R126 to
R135, R160). -/

namespace Sys2Proof.Machine

/-- 43_opselect.md R126. -/
def execAdd (rd rs1 rs2 : RegIdx) (s : State) : StepOutcome := answerOp .add 0b000 0b0000000 rd rs1 rs2 s

/-- 43_opselect.md R127. -/
def execSub (rd rs1 rs2 : RegIdx) (s : State) : StepOutcome := answerOp .sub 0b000 0b0100000 rd rs1 rs2 s

/-- 43_opselect.md R128. -/
def execXor (rd rs1 rs2 : RegIdx) (s : State) : StepOutcome := answerOp .xor 0b100 0b0000000 rd rs1 rs2 s

/-- 43_opselect.md R129. -/
def execOr (rd rs1 rs2 : RegIdx) (s : State) : StepOutcome := answerOp .or 0b110 0b0000000 rd rs1 rs2 s

/-- 43_opselect.md R130. -/
def execAnd (rd rs1 rs2 : RegIdx) (s : State) : StepOutcome := answerOp .and 0b111 0b0000000 rd rs1 rs2 s

/-- 43_opselect.md R131. -/
def execSll (rd rs1 rs2 : RegIdx) (s : State) : StepOutcome := answerOp .sll 0b001 0b0000000 rd rs1 rs2 s

/-- 43_opselect.md R132. -/
def execSrl (rd rs1 rs2 : RegIdx) (s : State) : StepOutcome := answerOp .srl 0b101 0b0000000 rd rs1 rs2 s

/-- 43_opselect.md R133. -/
def execSra (rd rs1 rs2 : RegIdx) (s : State) : StepOutcome := answerOp .sra 0b101 0b0100000 rd rs1 rs2 s

/-- 43_opselect.md R134. -/
def execSlt (rd rs1 rs2 : RegIdx) (s : State) : StepOutcome := answerOp .slt 0b010 0b0000000 rd rs1 rs2 s

/-- 43_opselect.md R135. -/
def execSltu (rd rs1 rs2 : RegIdx) (s : State) : StepOutcome := answerOp .sltu 0b011 0b0000000 rd rs1 rs2 s

/-- 43_opselect.md R160: every other `(funct3, funct7)` pair. -/
def execNoneOp (rd : RegIdx) (funct3 : Funct3) (rs1 rs2 : RegIdx) (funct7 : Funct7) (s : State) : StepOutcome :=
  answerDump (.R 0b0110011 rd funct3 rs1 rs2 funct7) s

end Sys2Proof.Machine
end

