-- ==== Sys2Proof/Machine/Store.lean ====
section
/-! DEFINITION. Format S, opcode 0100011: the three store mnemonics and their fallback class (43_opselect.md R149 to R151, R164). The
block forms no address and writes no memory (20_memory.md R30). -/

namespace Sys2Proof.Machine

/-- 43_opselect.md R149. -/
def execSb (immLo : BitVec 5) (rs1 rs2 : RegIdx) (immHi : SImmHi) (s : State) : StepOutcome :=
  answerStore .sb 0b000 immLo rs1 rs2 immHi s

/-- 43_opselect.md R150. -/
def execSh (immLo : BitVec 5) (rs1 rs2 : RegIdx) (immHi : SImmHi) (s : State) : StepOutcome :=
  answerStore .sh 0b001 immLo rs1 rs2 immHi s

/-- 43_opselect.md R151. -/
def execSw (immLo : BitVec 5) (rs1 rs2 : RegIdx) (immHi : SImmHi) (s : State) : StepOutcome :=
  answerStore .sw 0b010 immLo rs1 rs2 immHi s

/-- 43_opselect.md R164: `funct3` 3 to 7. -/
def execNoneStore (immLo : BitVec 5) (funct3 : Funct3) (rs1 rs2 : RegIdx) (immHi : SImmHi) (s : State) : StepOutcome :=
  answerDump (.S 0b0100011 immLo funct3 rs1 rs2 immHi) s

end Sys2Proof.Machine
end

