-- ==== Sys2Proof/Machine/UpperJump.lean ====
section
/-! DEFINITION. Formats U and J: `lui` and `jal` (43_opselect.md R158, R159). The block computes no target and writes no link
register (10_state.md R17). -/

namespace Sys2Proof.Machine

/-- 43_opselect.md R158, 44_render.md R188: `imm` is printed unshifted. -/
def execLui (rd : RegIdx) (imm : BitVec 20) (s : State) : StepOutcome :=
  .next (s.deliver (bundle (.U 0b0110111 rd imm) .lui (lineRegNum .lui rd imm.toNat)))

/-- 43_opselect.md R159, 44_render.md R189: the number printed is `j_imm`; the variant keeps the raw field
(42_immediates.md R117). -/
def execJal (rd : RegIdx) (imm : BitVec 20) (s : State) : StepOutcome :=
  .next (s.deliver (bundle (.J 0b1101111 rd imm) .jal (lineRegNum .jal rd (jImm imm).toNat)))

end Sys2Proof.Machine
end

