-- ==== Sys2Proof/Machine/Dispatch.lean ====
section
/-! DEFINITION. One arm per instruction; each calls the meaning of its row. -/

namespace Sys2Proof.Machine

def exec (i : Instr) (s : State) : Host.Outcome State Fault Refusal :=
  match i with
  | .add rd rs1 rs2 => Sys2Proof.Machine.execAdd rd rs1 rs2 s
  | .sub rd rs1 rs2 => Sys2Proof.Machine.execSub rd rs1 rs2 s
  | .xor rd rs1 rs2 => Sys2Proof.Machine.execXor rd rs1 rs2 s
  | .or rd rs1 rs2 => Sys2Proof.Machine.execOr rd rs1 rs2 s
  | .and rd rs1 rs2 => Sys2Proof.Machine.execAnd rd rs1 rs2 s
  | .sll rd rs1 rs2 => Sys2Proof.Machine.execSll rd rs1 rs2 s
  | .srl rd rs1 rs2 => Sys2Proof.Machine.execSrl rd rs1 rs2 s
  | .sra rd rs1 rs2 => Sys2Proof.Machine.execSra rd rs1 rs2 s
  | .slt rd rs1 rs2 => Sys2Proof.Machine.execSlt rd rs1 rs2 s
  | .sltu rd rs1 rs2 => Sys2Proof.Machine.execSltu rd rs1 rs2 s
  | .addi rd rs1 imm => Sys2Proof.Machine.execAddi rd rs1 imm s
  | .xori rd rs1 imm => Sys2Proof.Machine.execXori rd rs1 imm s
  | .ori rd rs1 imm => Sys2Proof.Machine.execOri rd rs1 imm s
  | .andi rd rs1 imm => Sys2Proof.Machine.execAndi rd rs1 imm s
  | .slli rd rs1 imm => Sys2Proof.Machine.execSlli rd rs1 imm s
  | .srli rd rs1 imm => Sys2Proof.Machine.execSrli rd rs1 imm s
  | .slti rd rs1 imm => Sys2Proof.Machine.execSlti rd rs1 imm s
  | .sltiu rd rs1 imm => Sys2Proof.Machine.execSltiu rd rs1 imm s
  | .lb rd rs1 imm => Sys2Proof.Machine.execLb rd rs1 imm s
  | .lh rd rs1 imm => Sys2Proof.Machine.execLh rd rs1 imm s
  | .lw rd rs1 imm => Sys2Proof.Machine.execLw rd rs1 imm s
  | .lbu rd rs1 imm => Sys2Proof.Machine.execLbu rd rs1 imm s
  | .lhu rd rs1 imm => Sys2Proof.Machine.execLhu rd rs1 imm s
  | .sb immLo rs1 rs2 immHi => Sys2Proof.Machine.execSb immLo rs1 rs2 immHi s
  | .sh immLo rs1 rs2 immHi => Sys2Proof.Machine.execSh immLo rs1 rs2 immHi s
  | .sw immLo rs1 rs2 immHi => Sys2Proof.Machine.execSw immLo rs1 rs2 immHi s
  | .beq immLo rs1 rs2 immHi => Sys2Proof.Machine.execBeq immLo rs1 rs2 immHi s
  | .bne immLo rs1 rs2 immHi => Sys2Proof.Machine.execBne immLo rs1 rs2 immHi s
  | .blt immLo rs1 rs2 immHi => Sys2Proof.Machine.execBlt immLo rs1 rs2 immHi s
  | .bge immLo rs1 rs2 immHi => Sys2Proof.Machine.execBge immLo rs1 rs2 immHi s
  | .bltu immLo rs1 rs2 immHi => Sys2Proof.Machine.execBltu immLo rs1 rs2 immHi s
  | .bgeu immLo rs1 rs2 immHi => Sys2Proof.Machine.execBgeu immLo rs1 rs2 immHi s
  | .lui rd imm => Sys2Proof.Machine.execLui rd imm s
  | .jal rd imm => Sys2Proof.Machine.execJal rd imm s
  | .noneOp rd funct3 rs1 rs2 funct7 => Sys2Proof.Machine.execNoneOp rd funct3 rs1 rs2 funct7 s
  | .noneLoad rd funct3 rs1 imm => Sys2Proof.Machine.execNoneLoad rd funct3 rs1 imm s
  | .noneJalr rd funct3 rs1 imm => Sys2Proof.Machine.execNoneJalr rd funct3 rs1 imm s
  | .noneSystem rd funct3 rs1 imm => Sys2Proof.Machine.execNoneSystem rd funct3 rs1 imm s
  | .noneStore immLo funct3 rs1 rs2 immHi => Sys2Proof.Machine.execNoneStore immLo funct3 rs1 rs2 immHi s
  | .noneBranch immLo funct3 rs1 rs2 immHi => Sys2Proof.Machine.execNoneBranch immLo funct3 rs1 rs2 immHi s

end Sys2Proof.Machine
end

