-- ==== Sys2Proof/Machine/Step.lean ====
section
/-! DEFINITION. One step is one call (10_state.md R10, R24; log entry 3): the next word is taken, the row of the
opcode table it selects gives the result, and a word of no row raises `UnknownOpcode`. -/

namespace Sys2Proof.Machine

def step (s : State) : Host.Outcome State Fault Refusal :=
  let s1 := s.accept
  match decodeInstr s1.input with
  | .ok i => exec i s1
  | .err (.unknownOpcode v) => .next (s1.raiseUnknownOpcode v)

/-- The word whose table bits are `w` is the next the supplier presents, in place of the one it would have
presented: this stands for supplying a program from outside the machine (log entry 2). -/
def State.withFetchWord (s : State) (nbits w : Nat) : State :=
  { s with pending := wordsOfBytes (tableBytes nbits w) ++ s.pending.drop 1 }

end Sys2Proof.Machine
end

