-- ==== Sys2Proof/Machine/Ports.lean ====
section
/-! DEFINITION. The flat port view of a result, an option of 10_state.md R15: one wire for each field name, shared by
the variants that have it (the arrangement is this model's choice, log entry 20). What the spec lets carry any value is
taken from an argument, `free`, so a claim about it holds whatever it carries. No step reads a wire. -/

namespace Sys2Proof

/-- The wires. `immHi` is as wide as the widest field of its name, and `imm20` carries the U or the raw J field. -/
structure Ports where
  failed   : Bool
  errValue : Opcode
  format   : Format
  opcode   : Opcode
  rd       : RegIdx
  funct3   : Funct3
  rs1      : RegIdx
  rs2      : RegIdx
  funct7   : Funct7
  imm12    : BitVec 12
  immLo    : BitVec 5
  immHi    : BitVec 7
  imm20    : BitVec 20
  op       : Op
  bImm     : BitVec 13
  sImm     : BitVec 12
  jImm     : BitVec 21
  text     : String
  deriving DecidableEq, Repr

/-- A variant's own fields; every other wire is `free`'s, and so are the wire bits above a field. -/
def Ports.putInstr (free : Ports) : Instruction → Ports
  | .R opcode rd funct3 rs1 rs2 funct7 =>
    { free with format := .R, opcode := opcode, rd := rd, funct3 := funct3, rs1 := rs1, rs2 := rs2, funct7 := funct7 }
  | .I opcode rd funct3 rs1 imm =>
    { free with format := .I, opcode := opcode, rd := rd, funct3 := funct3, rs1 := rs1, imm12 := imm }
  | .S opcode immLo funct3 rs1 rs2 immHi =>
    { free with
      format := .S, opcode := opcode, immLo := immLo, funct3 := funct3, rs1 := rs1, rs2 := rs2,
      immHi := (free.immHi >>> Config.sImmHiBits <<< Config.sImmHiBits) ||| immHi.setWidth 7 }
  | .B opcode immLo funct3 rs1 rs2 immHi =>
    { free with
      format := .B, opcode := opcode, immLo := immLo, funct3 := funct3, rs1 := rs1, rs2 := rs2, immHi := immHi }
  | .U opcode rd imm => { free with format := .U, opcode := opcode, rd := rd, imm20 := imm }
  | .J opcode rd imm => { free with format := .J, opcode := opcode, rd := rd, imm20 := imm }

/-- The result on wires. On failure only `failed` and `errValue` mean anything (10_state.md R15 (c)). -/
def Ports.ofResult (free : Ports) : CallResult → Ports
  | .err (.unknownOpcode v) => { free with failed := true, errValue := v }
  | .ok d =>
    { free.putInstr d.instr with
      failed := false, op := d.op, text := d.text, bImm := d.bImm.getD free.bImm, sImm := d.sImm.getD free.sImm,
      jImm := d.jImm.getD free.jImm }

/-- What a consumer may read back: the wires of the variant that the tag names, and no other. -/
def Ports.instr (p : Ports) : Instruction :=
  match p.format with
  | .R => .R p.opcode p.rd p.funct3 p.rs1 p.rs2 p.funct7
  | .I => .I p.opcode p.rd p.funct3 p.rs1 p.imm12
  | .S => .S p.opcode p.immLo p.funct3 p.rs1 p.rs2 (p.immHi.setWidth Config.sImmHiBits)
  | .B => .B p.opcode p.immLo p.funct3 p.rs1 p.rs2 p.immHi
  | .U => .U p.opcode p.rd p.imm20
  | .J => .J p.opcode p.rd p.imm20

/-- The result read back from the wires: the failure indication and the tag decide what is there (10_state.md
R15 (a)). -/
def Ports.result (p : Ports) : CallResult :=
  if p.failed then .err (.unknownOpcode p.errValue)
  else
    .ok
      { instr := p.instr, op := p.op, text := p.text
        bImm := if p.format = .B then some p.bImm else none
        sImm := if p.format = .S then some p.sImm else none
        jImm := if p.format = .J then some p.jImm else none }

end Sys2Proof
end

