-- ==== Sys2Proof/Machine/Flags.lean ====
section
/-! DEFINITION. Flags: the block has none, and no operation sets or reads one (10_state.md R18). The only
status-like output is the Ok/Err distinction of the current result, a view of `output` and no state of its own. -/

namespace Sys2Proof.Machine

/-- The last call failed (10_state.md R18, 60_exceptions.md R210). Not sticky: it is the current result's
(R215). -/
def State.failed (s : State) : Bool :=
  match s.output with
  | .ok _ => false
  | .err _ => true

end Sys2Proof.Machine
end

