-- ==== Sys2Proof/Safety.lean ====
section
/-! DEFINITION. What claims ask of a state and of a result. Every step of this hardware answers a next state
(70_reset_and_hazards.md R235), so a safe run is one whose results are the block's function. -/

namespace Sys2Proof.Machine

/-- The output is the function of rule R14 applied to whatever the input word currently is (10_state.md
R26 (b)). -/
def State.Settled (s : State) : Prop := s.output = frontEnd s.input

/-- What any result of the block satisfies by itself: tag and opcode agree, the operation is the selected one, the
reassembled immediates are those of the variant, the text is the rendered line; and a failure carries an opcode value
outside the nine (10_state.md R14, 41_decode.md R107 (c) and (d)). -/
def Coherent : CallResult → Prop
  | .ok d =>
    formatOf d.instr.opcode = some d.instr.format ∧ d.op = select d.instr ∧ d.bImm = bImmOf d.instr ∧
      d.sImm = sImmOf d.instr ∧ d.jImm = jImmOf d.instr ∧ d.text = render d.instr
  | .err (.unknownOpcode v) => formatOf v = none

end Sys2Proof.Machine
end

