-- ==== Sys2Proof/Certificates/Slice0/Obligations.lean ====
section
/-! DEFINITION. The statements for the provers. Where a clause rests on a choice the spec marks as its own (a decision D<n> of
92_eei_decisions.md, a passage from general knowledge G<n> of 93_implementation_defined.md) or on a choice of this model (a
log entry), the docstring says so. The block has no register, no flag, no special register and no memory (10_state.md R16
to R23): the frame of an instruction is that of the three fields of State. -/

open Sys2Proof Sys2Proof.Machine

namespace Sys2Proof.Certificates

/-- The nine recognised opcode values, in decimal (30_encoding.md R54). -/
def recognised : List Nat := [51, 19, 3, 35, 99, 111, 103, 55, 115]

/-- The field of `n` bits at `lo`, by the arithmetic of 40_extract.md R80: `floor(w / 2^lo) mod 2^n`. -/
def fieldAt (w : Word) (lo n : Nat) : BitVec n := BitVec.ofNat n (w.toNat / 2 ^ lo)

/-- `b_imm` by the arithmetic of 42_immediates.md R110. -/
def bNumber (immLo : BitVec 5) (immHi : BitVec 7) : Nat :=
  2 * (immLo.toNat / 2) + 32 * (immHi.toNat % 64) + 2048 * (immLo.toNat % 2) + 4096 * (immHi.toNat / 64)

/-- `s_imm` by the arithmetic of 42_immediates.md R113. -/
def sNumber (immLo : BitVec 5) (immHi : BitVec 6) : Nat := immLo.toNat + 32 * immHi.toNat

/-- `j_imm` by the arithmetic of 42_immediates.md R114. -/
def jNumber (imm : BitVec 20) : Nat :=
  2 * (imm.toNat / 512 % 1024) + 2048 * (imm.toNat / 256 % 2) + 4096 * (imm.toNat % 256) +
    1048576 * (imm.toNat / 524288)

/-- `x<a>, x<b>, x<c>`. -/
def threeRegs (a b c : RegIdx) : String := "x" ++ dec a.toNat ++ ", x" ++ dec b.toNat ++ ", x" ++ dec c.toNat

/-- `x<a>, x<b>, <number>`. -/
def twoRegsNumber (a b : RegIdx) (number : Nat) : String :=
  "x" ++ dec a.toNat ++ ", x" ++ dec b.toNat ++ ", " ++ dec number

/-- `x<a>, <offset>(x<base>)`. -/
def regMem (a : RegIdx) (offset : Nat) (base : RegIdx) : String :=
  "x" ++ dec a.toNat ++ ", " ++ dec offset ++ "(x" ++ dec base.toNat ++ ")"

/-- The state after a call that gave a bundle without reassembled immediate: nothing but the output changes. -/
def answered (s : State) (v : Instruction) (op : Op) (text : String) : State :=
  { s with output := .ok { instr := v, op := op, bImm := none, sImm := none, jImm := none, text := text } }

/-- The same with `b_imm`. -/
def answeredB (s : State) (v : Instruction) (op : Op) (b : Nat) (text : String) : State :=
  { s with output := .ok { instr := v, op := op, bImm := some (BitVec.ofNat 13 b), sImm := none, jImm := none, text := text } }

/-- The same with `s_imm`. -/
def answeredS (s : State) (v : Instruction) (op : Op) (n : Nat) (text : String) : State :=
  { s with output := .ok { instr := v, op := op, bImm := none, sImm := some (BitVec.ofNat 12 n), jImm := none, text := text } }

/-- The same with `j_imm`. -/
def answeredJ (s : State) (v : Instruction) (op : Op) (j : Nat) (text : String) : State :=
  { s with output := .ok { instr := v, op := op, bImm := none, sImm := none, jImm := some (BitVec.ofNat 21 j), text := text } }

end Sys2Proof.Certificates

open Sys2Proof.Certificates

/-! ## The step and the decoded instruction -/

/-- A step runs the decoded instruction. The step takes the next pending word (the held one where none is pending) and,
when it decodes to `i`, is `exec i` in the state whose input is that word; so for the bytes a supplier assembles and for
`withFetchWord`. How a step takes its word is this model's choice (log entry 3). -/
def Obligations.StepRunsTheDecodedInstruction : Prop :=
  (∀ (s : State) w ws i, s.pending = w :: ws → decodeInstr w = .ok i →
    step s = exec i { s with input := w, pending := ws }) ∧
  (∀ (s : State) i, s.pending = [] → decodeInstr s.input = .ok i → step s = exec i s) ∧
  (∀ (s : State) b0 b1 b2 b3 rest i, decodeBytes (b0 :: b1 :: b2 :: b3 :: rest) = .ok (i, rest) →
    step { s with pending := wordsOfBytes (b0 :: b1 :: b2 :: b3 :: rest) } =
      exec i { s with input := wordOfBytes b0 b1 b2 b3, pending := wordsOfBytes rest }) ∧
  (∀ (s : State) w i, decodeTableWord 32 w = some i →
    step (s.withFetchWord 32 w) = exec i { s with input := BitVec.ofNat 32 w, pending := s.pending.drop 1 })

/-- Every instruction has its effect in every state and at all operands, and its frame: `exec` answers a next state whose
output is the bundle of the instruction's variant, and whose input and pending words are unchanged. There is no other
state (10_state.md R10, R16 to R23). -/
def Obligations.EveryInstructionCompletesAndChangesOnlyTheOutput : Prop :=
  ∀ i s, ∃ t d, exec i s = .next t ∧ t.input = s.input ∧ t.pending = s.pending ∧ t.output = .ok d ∧
    d.instr = i.variant

/-- The meanings, written row by row, agree with the function chain of 10_state.md R14 (decode, select, reassemble,
render) at the instruction's own word: for every well-formed instruction and every state. -/
def Obligations.MeaningIsTheFrontEndOfTheInstructionsWord : Prop :=
  ∀ i s, i.wellFormed = true → exec i s = .next { s with output := frontEnd (encode i) }

/-- One step is one call of the block's function on the word it takes, for every state and every one of the 2^32 words
(10_state.md R11, R14). -/
def Obligations.StepIsTheFrontEndOfTheWordTaken : Prop :=
  (∀ (s : State) w ws, s.pending = w :: ws → step s = .next { input := w, output := frontEnd w, pending := ws }) ∧
  (∀ s : State, s.pending = [] → step s = .next { input := s.input, output := frontEnd s.input, pending := [] })

/-- Every step answers a next state: a call ends by returning its result, and nothing faults or is refused
(70_reset_and_hazards.md R235, 60_exceptions.md R224). -/
def Obligations.EveryStepAnswersANextState : Prop :=
  ∀ s, ∃ t, step s = .next t

/-- The result of a call is a function of its word alone: two states that present the same word next, and differ in
everything else, give the same result (10_state.md R10, R25). -/
def Obligations.ResultDependsOnTheWordAlone : Prop :=
  ∀ (s t s' t' : State) w ws vs, s.pending = w :: ws → t.pending = w :: vs → step s = .next s' → step t = .next t' →
    s'.output = t'.output

/-- Results over a sequence of words, word by word: after `k + 1` steps the output is the block's function of the `k`-th
word and of nothing before it (20_memory.md R36, R41; 60_exceptions.md R225). -/
def Obligations.SequenceResultsAreWordByWord : Prop :=
  ∀ (s : State) (ws : List Word) (k : Nat) (hk : k < ws.length), s.pending = ws →
    Host.Core.run core (k + 1) s = .next { input := ws[k], output := frontEnd ws[k], pending := ws.drop (k + 1) }

/-- A failing word affects only its own result: the call after it gives the state it would have given had the failing call
never been made (60_exceptions.md R215, R225). -/
def Obligations.FailingWordLeavesNoTrace : Prop :=
  ∀ (s : State) (bad w : Word) (ws : List Word), s.pending = bad :: w :: ws → bad.toNat % 128 ∉ recognised →
    Host.Core.run core 1 s = .next { input := bad, output := .err (.unknownOpcode (fieldAt bad 0 7)), pending := w :: ws } ∧
    Host.Core.run core 2 s = Host.Core.run core 1 { s with pending := w :: ws }

/-- While no new word is presented, the output is valid as long as the input is held: a settled state is a fixed point of
the step (10_state.md R24, 20_memory.md R33). -/
def Obligations.HeldInputKeepsTheOutput : Prop :=
  ∀ s : State, s.pending = [] → s.Settled → step s = .next s

/-- The state after reset is settled (10_state.md R26 (b)). The input 0 and the empty list are this model's choice (log
entry 2). -/
def Obligations.ResetIsSettled : Prop :=
  State.reset.Settled ∧ Coherent State.reset.output

/-- Every step keeps the outputs the function of the input (10_state.md R26 (b)), with tag and opcode in agreement, the
immediates present exactly for their variant, and a failure only outside the nine opcodes. -/
def Obligations.StepKeepsTheOutputsSettledAndCoherent : Prop :=
  ∀ s t : State, s.Settled ∧ Coherent s.output → step s = .next t → t.Settled ∧ Coherent t.output

/-- The result is recovered exactly from the flat wires, whatever the wires that mean nothing carry: from the failure indication
and the tag a consumer reads back the whole result of any word (10_state.md R15 (a) to (c), an option of the spec's decision D2; the
arrangement of the wires is this model's choice, log entry 20). -/
def Obligations.FlatWiresCarryTheResultWhateverTheOthersCarry : Prop :=
  ∀ (w : Word) (free : Ports), (free.ofResult (frontEnd w)).result = frontEnd w

/-! ## The exception -/

/-- `UnknownOpcode`: for every word outside the nine opcode values, and for no other, `decode`, and with it the whole chain,
returns the error with the 7-bit opcode value as payload; `select` and `render` are not applied (41_decode.md R106). -/
def Obligations.UnknownOpcodeExactlyOutsideTheNine : Prop :=
  ∀ w : Word,
    (w.toNat % 128 ∉ recognised → decode w = .err (.unknownOpcode (fieldAt w 0 7)) ∧
      frontEnd w = .err (.unknownOpcode (fieldAt w 0 7)) ∧ disasm w = .err (.unknownOpcode (fieldAt w 0 7))) ∧
    (w.toNat % 128 ∈ recognised → ∃ v, decode w = .ok v)

/-- Taking the exception: a step on a word of an unknown opcode goes on, in a next state that differs in the output alone
(and in the word taken); nothing is saved, nothing is redirected (60_exceptions.md R210, R214). -/
def Obligations.UnknownOpcodeIsAReturnedValue : Prop :=
  ∀ (s : State) (w : Word) (ws : List Word), s.pending = w :: ws → w.toNat % 128 ∉ recognised →
    step s = .next { input := w, output := .err (.unknownOpcode (fieldAt w 0 7)), pending := ws }

/-- The unrecognised opcode space: exactly the nine values of 30_encoding.md R54 have a format, 119 have none, and every
recognised value has its two lowest bits set (R55). -/
def Obligations.NineOpcodesHaveAFormat : Prop :=
  ((List.range 128).filter fun v => (formatOf (BitVec.ofNat 7 v)).isSome) = [3, 19, 35, 51, 55, 99, 103, 111, 115] ∧
  ((List.range 128).filter fun v => (formatOf (BitVec.ofNat 7 v)).isNone).length = 119 ∧
  ∀ v, v < 128 → (formatOf (BitVec.ofNat 7 v)).isSome = true → v % 4 = 3

/-! ## Extraction and the byte order -/

/-- `extract` is the right-aligned unsigned field: its value by division, and bit `k` of the result is bit `lo + k` of the
word, every higher bit 0 (40_extract.md R80). -/
def Obligations.ExtractIsTheRightAlignedField : Prop :=
  ∀ (w : Word) (lo hi : Nat) (h : lo ≤ hi ∧ hi ≤ 31),
    (extract w lo hi h).toNat = w.toNat / 2 ^ lo % 2 ^ (hi - lo + 1) ∧
    ∀ k, (extract w lo hi h).getLsbD k = (decide (k ≤ hi - lo) && w.getLsbD (lo + k))

/-- The laws of `extract`: round trip over all 32 bits, bound, splitting, nesting, agreement (40_extract.md R82 (b) to (f);
(c) to (f) are the spec's derivations). -/
def Obligations.ExtractLaws : Prop :=
  (∀ w : Word, extract w 0 31 = w) ∧
  (∀ (w : Word) (lo hi : Nat) (h : lo ≤ hi ∧ hi ≤ 31), (extract w lo hi h).toNat < 2 ^ (hi - lo + 1)) ∧
  (∀ (w : Word) (lo m hi : Nat) (h1 : lo ≤ m ∧ m ≤ 31) (h2 : m + 1 ≤ hi ∧ hi ≤ 31) (h3 : lo ≤ hi ∧ hi ≤ 31),
    (extract w lo hi h3).toNat = (extract w lo m h1).toNat + 2 ^ (m - lo + 1) * (extract w (m + 1) hi h2).toNat) ∧
  (∀ (w : Word) (lo hi a b : Nat) (h : lo ≤ hi ∧ hi ≤ 31) (hab : a ≤ b ∧ b ≤ 31) (hb : lo + b ≤ hi)
    (h' : lo + a ≤ lo + b ∧ lo + b ≤ 31),
    (extract (asWord (extract w lo hi h)) a b hab).toNat = (extract w (lo + a) (lo + b) h').toNat) ∧
  (∀ (u w : Word) (lo hi : Nat) (h : lo ≤ hi ∧ hi ≤ 31),
    extract u lo hi h = extract w lo hi h ↔ ∀ k, lo ≤ k → k ≤ hi → u.getLsbD k = w.getLsbD k)

/-- Containers: 8 bits up to width 8, 16 up to 16, 32 up to 32, and a container keeps the value, so the bits above the
width are 0 (40_extract.md R81). -/
def Obligations.ContainersAreTheNarrowestAndKeepTheValue : Prop :=
  (∀ n, n ≤ 8 → containerBits n = 8) ∧ (∀ n, 9 ≤ n → n ≤ 16 → containerBits n = 16) ∧
  (∀ n, 17 ≤ n → n ≤ 32 → containerBits n = 32) ∧
  (∀ (n : Nat) (v : BitVec n), n ≤ 32 → (contain v).toNat = v.toNat ∧ ∀ k, n ≤ k → (contain v).getLsbD k = false)

/-- The byte order at the boundary (20_memory.md R31; that little-endian means this is the spec's G4): each byte lies where
the rule puts it, and the bytes of a word, supplied in order, are presented as that word. -/
def Obligations.BytesAreAssembledLittleEndian : Prop :=
  (∀ b0 b1 b2 b3 : Byte, (wordOfBytes b0 b1 b2 b3).toNat =
    b0.toNat + 256 * b1.toNat + 65536 * b2.toNat + 16777216 * b3.toNat) ∧
  (∀ (s : State) (ws : List Word), s.supplyBytes (ws.flatMap bytesOfWord) = s.supply ws)

/-! ## Format classification -/

/-- The opcode field alone chooses the format: two words with the same bits 0 to 6 both decode to the same format or both
fail (30_encoding.md R46). -/
def Obligations.OpcodeAloneChoosesTheFormat : Prop :=
  ∀ u w : Word, u.toNat % 128 = w.toNat % 128 →
    (∃ a b, decode u = .ok a ∧ decode w = .ok b ∧ a.format = b.format ∧ a.opcode = b.opcode) ∨
    (∃ e, decode u = .err e ∧ decode w = .err e)

/-- The constructors of formats R, I, B, U and J take each field from its bit range (41_decode.md R100, R101, R103 to R105, with the
ranges of 30_encoding.md R47 to R52). -/
def Obligations.ConstructorsTakeTheFieldsOfTheirFormat : Prop :=
  ∀ w : Word,
    mkR w = .R (fieldAt w 0 7) (fieldAt w 7 5) (fieldAt w 12 3) (fieldAt w 15 5) (fieldAt w 20 5) (fieldAt w 25 7) ∧
    mkI w = .I (fieldAt w 0 7) (fieldAt w 7 5) (fieldAt w 12 3) (fieldAt w 15 5) (fieldAt w 20 12) ∧
    mkB w = .B (fieldAt w 0 7) (fieldAt w 7 5) (fieldAt w 12 3) (fieldAt w 15 5) (fieldAt w 20 5) (fieldAt w 25 7) ∧
    mkU w = .U (fieldAt w 0 7) (fieldAt w 7 5) (fieldAt w 12 20) ∧
    mkJ w = .J (fieldAt w 0 7) (fieldAt w 7 5) (fieldAt w 12 20)

/-- The constructor of format S takes a high field of 6 bits, so it does not see bit 31 (41_decode.md R102; the width is the spec's
decision D4, 90_conflicts.md C1, log entry 5). -/
def Obligations.StoreConstructorDoesNotSeeBit31 : Prop :=
  ∀ w : Word,
    mkS w = .S (fieldAt w 0 7) (fieldAt w 7 5) (fieldAt w 12 3) (fieldAt w 15 5) (fieldAt w 20 5) (fieldAt w 25 6) ∧
    mkS w = mkS (w ^^^ 0x80000000)

/-- One arm per recognised opcode, for all values of the other 25 bits, with what the rules say beside: a load is told by its opcode
field 3, no JALR or SYSTEM word selects a mnemonic, and no other opcode gives the U format (41_decode.md R93, R95 to R99; the arms of R91,
R92 and R94 stand here too, without their remarks on selection and on bit 31, which rest on the spec's G1 and D4). -/
def Obligations.EachOpcodeHasItsConstructor : Prop :=
  ∀ w : Word,
    (w.toNat % 128 = 51 → decode w = .ok (mkR w)) ∧
    (w.toNat % 128 = 19 → decode w = .ok (mkI w)) ∧
    (w.toNat % 128 = 3 → decode w = .ok (mkI w) ∧ (mkI w).opcode = 3) ∧
    (w.toNat % 128 = 35 → decode w = .ok (mkS w)) ∧
    (w.toNat % 128 = 99 → decode w = .ok (mkB w)) ∧
    (w.toNat % 128 = 111 → decode w = .ok (mkJ w)) ∧
    (w.toNat % 128 = 103 → decode w = .ok (mkI w) ∧ select (mkI w) = .none) ∧
    (w.toNat % 128 = 55 → decode w = .ok (mkU w)) ∧
    (∀ v, decode w = .ok v → v.format = .U → w.toNat % 128 = 55) ∧
    (w.toNat % 128 = 115 → decode w = .ok (mkI w) ∧ select (mkI w) = .none)

/-! ## Rows, words and encodings -/

/-- Decode and encode agree: for every well-formed instruction, at every value of every operand, the decoder gives the
instruction back from its word (41_decode.md R107 (e), 95_test_vectors.md P5). -/
def Obligations.DecodeOfEncodeIsTheInstruction : Prop :=
  ∀ i : Instr, i.wellFormed = true → decodeInstr (encode i) = .ok i

/-- The other direction: a word that decodes is rebuilt from its instruction, bit for bit for formats R, I, B, U, J, and up
to bit 31 for format S, which bit 31 of the encoder's word leaves 0 (41_decode.md R107 (e)). -/
def Obligations.EncodeOfDecodeIsTheWord : Prop :=
  ∀ (w : Word) (i : Instr), decodeInstr w = .ok i →
    encode i = if w.toNat % 128 = 35 then w &&& 0x7FFFFFFF else w

/-- `decode` identifies exactly the S-format words that differ in bit 31 alone, and no other words that decode
(41_decode.md R107 (e)). -/
def Obligations.DecodeIdentifiesOnlyStoresDifferingInBit31 : Prop :=
  (∀ u w v, decode u = .ok v → decode w = .ok v →
    u = w ∨ (u.toNat % 128 = 35 ∧ u ^^^ w = 0x80000000)) ∧
  (∀ w : Word, w.toNat % 128 = 35 → decode (w ^^^ 0x80000000) = decode w)

/-- The row decoder and the format classifier read every word alike: the instruction of the row stands for the variant that
`decode` builds, and they fail on the same words with the same error. -/
def Obligations.RowDecoderAgreesWithTheClassifier : Prop :=
  ∀ w : Word, decode w =
    match decodeInstr w with
    | .ok i => .ok i.variant
    | .err e => .err e

/-- What the row decoder gives is well-formed: a fallback row never holds the key of a mnemonic. -/
def Obligations.DecodedInstructionsAreWellFormed : Prop :=
  ∀ (w : Word) (i : Instr), decodeInstr w = .ok i → i.wellFormed = true

/-- The opcode table read by mask and match, mnemonic rows before fallback rows, gives on every word the row of the decoded
instruction, and no row exactly where the decoder fails (30_encoding.md R60; the function codes of 29 rows are the spec's G1). -/
def Obligations.MaskAndMatchSelectTheDecodedRow : Prop :=
  ∀ w : Word,
    (∀ i, decodeInstr w = .ok i → ∃ r, tableRowOf w = some r ∧ r.mnemonic = i.mnemonic) ∧
    (∀ e, decodeInstr w = .err e → tableRowOf w = none)

/-- No word selects two mnemonic rows (30_encoding.md R60). -/
def Obligations.NoWordSelectsTwoMnemonicRows : Prop :=
  ∀ (w : Word) (r q : TableRow), r ∈ mnemonicRows → q ∈ mnemonicRows → r.selects w = true → q.selects w = true → r = q

/-- Words written out bit by bit decode to the instructions they stand for, one of each of the nine opcode classes and of two
fallbacks beside, and a word of an unknown opcode fails (a sanity statement; bit ranges of 30_encoding.md section 3, opcodes of section 4,
function codes of section 9). The function codes of `sub`, `lw`, `sw` and `bne` are the spec's G1 (log entry 13), the name `lui` its
G5, and that bit 31 of the `sw` word is in no field its decision D4 (log entry 5). -/
def Obligations.WrittenOutWordsDecode : Prop :=
  decodeInstr 0b0100000_00111_00110_000_00101_0110011 = .ok (.sub 5 6 7) ∧
  decodeInstr 0b111111111111_00010_000_00001_0010011 = .ok (.addi 1 2 4095) ∧
  decodeInstr 0b000000010000_01001_010_01000_0000011 = .ok (.lw 8 9 16) ∧
  decodeInstr 0b1111111_00001_00010_010_11100_0100011 = .ok (.sw 28 2 1 63) ∧
  decodeInstr 0b1111111_00000_01011_001_01101_1100011 = .ok (.bne 13 11 0 127) ∧
  decodeInstr 0b00010010001101000101_00101_0110111 = .ok (.lui 5 74565) ∧
  decodeInstr 0b11111111110111111111_00001_1101111 = .ok (.jal 1 1048063) ∧
  decodeInstr 0b111111111100_00101_000_00001_1100111 = .ok (.noneJalr 1 0 5 4092) ∧
  decodeInstr 0b0000001_00111_00110_000_00101_0110011 = .ok (.noneOp 5 0 6 7 1) ∧
  decodeInstr 0b000000010000_01001_011_01000_0000011 = .ok (.noneLoad 8 3 9 16) ∧
  decodeInstr 0b000000000000_00000_000_00000_1110011 = .ok (.noneSystem 0 0 0 0) ∧
  decodeInstr 0b00001111111100000000000000001111 = .err (.unknownOpcode 15)

/-! ## Immediates -/

/-- `b_imm` bit by bit and as arithmetic, from the raw fields (42_immediates.md R110), and from the word: every BRANCH word
delivers it, whatever its `funct3`. -/
def Obligations.BranchImmediateIsReassembled : Prop :=
  (∀ (immLo : BitVec 5) (immHi : BitVec 7),
    (bImm immLo immHi).getLsbD 0 = false ∧
    (∀ k, 1 ≤ k → k ≤ 4 → (bImm immLo immHi).getLsbD k = immLo.getLsbD k) ∧
    (∀ k, k ≤ 5 → (bImm immLo immHi).getLsbD (5 + k) = immHi.getLsbD k) ∧
    (bImm immLo immHi).getLsbD 11 = immLo.getLsbD 0 ∧
    (bImm immLo immHi).getLsbD 12 = immHi.getLsbD 6 ∧
    (bImm immLo immHi).toNat = bNumber immLo immHi) ∧
  (∀ w : Word, w.toNat % 128 = 99 → ∃ d b, frontEnd w = .ok d ∧ d.bImm = some b ∧
    b.getLsbD 0 = false ∧
    (∀ k, 1 ≤ k → k ≤ 4 → b.getLsbD k = w.getLsbD (7 + k)) ∧
    (∀ k, k ≤ 5 → b.getLsbD (5 + k) = w.getLsbD (25 + k)) ∧
    b.getLsbD 11 = w.getLsbD 7 ∧ b.getLsbD 12 = w.getLsbD 31)

/-- Every even number 0 to 8190 is the `b_imm` of exactly one pair of fields, the one the rule's inverse gives
(42_immediates.md R112 (a) to (c), the spec's derivation). -/
def Obligations.BranchImmediateIsABijectionOntoEvenOffsets : Prop :=
  (∀ immLo immHi, (bImm immLo immHi).toNat % 2 = 0 ∧ (bImm immLo immHi).toNat ≤ 8190) ∧
  (∀ n, n % 2 = 0 → n ≤ 8190 → ∀ immLo immHi, (bImm immLo immHi).toNat = n ↔
    immLo.toNat = 2 * (n / 2 % 16) + n / 2048 % 2 ∧ immHi.toNat = 64 * (n / 4096) + n / 32 % 64)

/-- `s_imm` is the two halves stacked, at most 2047, its bit 11 always 0 (42_immediates.md R113: the spec's decision D5, at the
field width of its decision D4). -/
def Obligations.StoreImmediateStacksTheHalves : Prop :=
  ∀ (immLo : BitVec 5) (immHi : BitVec 6),
    (sImm immLo immHi).toNat = sNumber immLo immHi ∧ (sImm immLo immHi).toNat ≤ 2047 ∧
    (sImm immLo immHi).getLsbD 11 = false ∧
    (∀ k, k ≤ 4 → (sImm immLo immHi).getLsbD k = immLo.getLsbD k) ∧
    (∀ k, k ≤ 5 → (sImm immLo immHi).getLsbD (5 + k) = immHi.getLsbD k)

/-- `j_imm` bit by bit, as arithmetic, and its inverse (42_immediates.md R114: the bit order is the spec's G3 and decision
D6). -/
def Obligations.JumpImmediateIsReassembled : Prop :=
  ∀ imm : BitVec 20,
    (jImm imm).getLsbD 0 = false ∧
    (∀ k, k ≤ 9 → (jImm imm).getLsbD (1 + k) = imm.getLsbD (9 + k)) ∧
    (jImm imm).getLsbD 11 = imm.getLsbD 8 ∧
    (∀ k, k ≤ 7 → (jImm imm).getLsbD (12 + k) = imm.getLsbD k) ∧
    (jImm imm).getLsbD 20 = imm.getLsbD 19 ∧
    (jImm imm).toNat = jNumber imm ∧ (jImm imm).toNat ≤ 2097150 ∧
    ∀ imm', jImm imm = jImm imm' → imm = imm'

/-- A reassembled immediate is present for its own variant and absent for every other (10_state.md R14). -/
def Obligations.ImmediatesArePresentForTheirVariantOnly : Prop :=
  ∀ (w : Word) (d : Decoded), frontEnd w = .ok d →
    (d.bImm.isSome = true ↔ w.toNat % 128 = 99) ∧ (d.sImm.isSome = true ↔ w.toNat % 128 = 35) ∧
    (d.jImm.isSome = true ↔ w.toNat % 128 = 111)

/-- What a consumer outside the block reads: the two's-complement value of each immediate that has a sign-bit position, and its
range (42_immediates.md R111, R113 to R115, R118: the spec's G9; the rows of `s_imm` and `j_imm` are its decisions D5 and D6).
`s_imm` never reads negative, since its bit 11 is 0 while S_IMM_HI_BITS is 6 (D4, log entry 5). The block itself delivers the unsigned
pattern. -/
def Obligations.ConsumersSignedReadingOfTheImmediates : Prop :=
  (iImmSignBit = 11 ∧ sImmSignBit = 11 ∧ bImmSignBit = 12 ∧ jImmSignBit = 20) ∧
  (∀ immLo immHi, consumerSigned (bImm immLo immHi) bImmSignBit = (bImm immLo immHi).toInt ∧
    -4096 ≤ consumerSigned (bImm immLo immHi) bImmSignBit ∧ consumerSigned (bImm immLo immHi) bImmSignBit ≤ 4094) ∧
  (∀ imm, consumerSigned (jImm imm) jImmSignBit = (jImm imm).toInt ∧
    -1048576 ≤ consumerSigned (jImm imm) jImmSignBit ∧ consumerSigned (jImm imm) jImmSignBit ≤ 1048574) ∧
  (∀ immLo immHi, consumerSigned (sImm immLo immHi) sImmSignBit = (sImm immLo immHi).toInt ∧
    consumerSigned (sImm immLo immHi) sImmSignBit = (sImm immLo immHi).toNat ∧
    0 ≤ consumerSigned (sImm immLo immHi) sImmSignBit ∧ consumerSigned (sImm immLo immHi) sImmSignBit ≤ 2047) ∧
  (∀ imm : BitVec 12, consumerSigned imm iImmSignBit = imm.toInt ∧
    -2048 ≤ consumerSigned imm iImmSignBit ∧ consumerSigned imm iImmSignBit ≤ 2047)

/-! ## Selection -/

/-- Selection reads the dispatch key of the format and nothing else (30_encoding.md R59): the opcode and `funct3`, for format R
`funct7` too, and for formats U and J, whose bits 12 to 14 are immediate bits, the opcode alone. Two words that decode and agree on
the key select the same operation. -/
def Obligations.SelectionReadsOnlyTheDispatchKey : Prop :=
  ∀ (u w : Word) (c d : Decoded), frontEnd u = .ok c → frontEnd w = .ok d →
    fieldAt u 0 7 = fieldAt w 0 7 →
    (u.toNat % 128 ≠ 55 → u.toNat % 128 ≠ 111 → fieldAt u 12 3 = fieldAt w 12 3) →
    (u.toNat % 128 = 51 → fieldAt u 25 7 = fieldAt w 25 7) → c.op = d.op

/-- Which keys select a mnemonic: 10 of the 1024 R keys, every OP-IMM key, 5 of the 8 LOAD keys and no other I key, 3 of the 8 S keys, 6
of the 8 B keys (43_opselect.md R166 (d), the spec's derivation; the keys are its G1). -/
def Obligations.SelectingKeysAreTheListedOnes : Prop :=
  (∀ funct3 funct7, selectR funct3 funct7 ≠ .none ↔ (funct3, funct7) ∈ opKeys) ∧
  (∀ opcode funct3, selectI opcode funct3 ≠ .none ↔ opcode = 19 ∨ opcode = 3 ∧ funct3 ∈ loadKeys) ∧
  (∀ funct3, selectS funct3 ≠ .none ↔ funct3 ∈ storeKeys) ∧
  (∀ funct3, selectB funct3 ≠ .none ↔ funct3 ∈ branchKeys) ∧
  (opKeys.Nodup ∧ opKeys.length = 10) ∧ (loadKeys.Nodup ∧ loadKeys.length = 5) ∧
  (storeKeys.Nodup ∧ storeKeys.length = 3) ∧ (branchKeys.Nodup ∧ branchKeys.length = 6)

/-- Three classes of word and no others: the opcode is unknown and the word fails; or it is known and no mnemonic is selected,
exactly on the fallback rows, and the text is the generic dump (the parameter GenericDump, at the default of log entry 8); or the
operation's name is the mnemonic of the word's row (30_encoding.md R57, 60_exceptions.md R211). -/
def Obligations.ThreeClassesOfWord : Prop :=
  ∀ w : Word,
    (w.toNat % 128 ∉ recognised ∧ ∃ e, frontEnd w = .err e) ∨
    (∃ i d, decodeInstr w = .ok i ∧ frontEnd w = .ok d ∧ d.op = .none ∧ d.text = dump d.instr ∧
      i.mnemonic ∈ fallbackRows.map (·.mnemonic)) ∨
    (∃ i d, decodeInstr w = .ok i ∧ frontEnd w = .ok d ∧ d.op ≠ .none ∧ mn d.op = i.mnemonic ∧
      i.mnemonic ∈ mnemonicRows.map (·.mnemonic))

/-- `add`: every word with opcode 51, `funct3 = 0`, `funct7 = 0` selects ADD and renders `add x<rd>, x<rs1>, x<rs2>`, whatever
the registers (43_opselect.md R126). -/
def Obligations.AddWordsSelectAdd : Prop :=
  ∀ (s : State) (w : Word) (ws : List Word), s.pending = w :: ws →
    w.toNat % 128 = 51 → fieldAt w 12 3 = 0 → fieldAt w 25 7 = 0 →
    step s = .next (answered { s with input := w, pending := ws }
      (.R 51 (fieldAt w 7 5) 0 (fieldAt w 15 5) (fieldAt w 20 5) 0) .add
      ("add " ++ threeRegs (fieldAt w 7 5) (fieldAt w 15 5) (fieldAt w 20 5)))

/-- `addi`: every word with opcode 19 and `funct3 = 0` selects ADDI and renders `addi x<rd>, x<rs1>, <imm>`, the immediate the
raw unsigned pattern (43_opselect.md R136). -/
def Obligations.AddiWordsSelectAddi : Prop :=
  ∀ (s : State) (w : Word) (ws : List Word), s.pending = w :: ws →
    w.toNat % 128 = 19 → fieldAt w 12 3 = 0 →
    step s = .next (answered { s with input := w, pending := ws }
      (.I 19 (fieldAt w 7 5) 0 (fieldAt w 15 5) (fieldAt w 20 12)) .addi
      ("addi " ++ twoRegsNumber (fieldAt w 7 5) (fieldAt w 15 5) (w.toNat / 2 ^ 20)))

/-- `beq`: every word with opcode 99 and `funct3 = 0` selects BEQ and renders `beq x<rs1>, x<rs2>, <b_imm>` (43_opselect.md
R152). -/
def Obligations.BeqWordsSelectBeq : Prop :=
  ∀ (s : State) (w : Word) (ws : List Word), s.pending = w :: ws →
    w.toNat % 128 = 99 → fieldAt w 12 3 = 0 →
    step s = .next (answeredB { s with input := w, pending := ws }
      (.B 99 (fieldAt w 7 5) 0 (fieldAt w 15 5) (fieldAt w 20 5) (fieldAt w 25 7)) .beq
      (bNumber (fieldAt w 7 5) (fieldAt w 25 7))
      ("beq " ++ twoRegsNumber (fieldAt w 15 5) (fieldAt w 20 5) (bNumber (fieldAt w 7 5) (fieldAt w 25 7))))

/-- JALR and SYSTEM words select NONE at every `funct3` and every immediate, raise nothing, and deliver their fields raw; the
text is the generic dump of the variant (43_opselect.md R162, R163). -/
def Obligations.JalrAndSystemWordsSelectNone : Prop :=
  ∀ (s : State) (w : Word) (ws : List Word), s.pending = w :: ws → w.toNat % 128 = 103 ∨ w.toNat % 128 = 115 →
    step s = .next (answered { s with input := w, pending := ws }
      (.I (fieldAt w 0 7) (fieldAt w 7 5) (fieldAt w 12 3) (fieldAt w 15 5) (fieldAt w 20 12)) .none
      (dump (.I (fieldAt w 0 7) (fieldAt w 7 5) (fieldAt w 12 3) (fieldAt w 15 5) (fieldAt w 20 12))))

/-! ## What each family's instructions answer -/

/-- The ten register-register instructions, in every state and at all registers: the next state (43_opselect.md R126 to R135, 44_render.md
R183; the function codes of nine are the spec's G1). -/
def Obligations.RegisterRegisterInstructionsAnswer : Prop :=
  ∀ (rd rs1 rs2 : RegIdx) (s : State),
    exec (.add rd rs1 rs2) s = .next (answered s (.R 51 rd 0 rs1 rs2 0) .add ("add " ++ threeRegs rd rs1 rs2)) ∧
    exec (.sub rd rs1 rs2) s = .next (answered s (.R 51 rd 0 rs1 rs2 32) .sub ("sub " ++ threeRegs rd rs1 rs2)) ∧
    exec (.xor rd rs1 rs2) s = .next (answered s (.R 51 rd 4 rs1 rs2 0) .xor ("xor " ++ threeRegs rd rs1 rs2)) ∧
    exec (.or rd rs1 rs2) s = .next (answered s (.R 51 rd 6 rs1 rs2 0) .or ("or " ++ threeRegs rd rs1 rs2)) ∧
    exec (.and rd rs1 rs2) s = .next (answered s (.R 51 rd 7 rs1 rs2 0) .and ("and " ++ threeRegs rd rs1 rs2)) ∧
    exec (.sll rd rs1 rs2) s = .next (answered s (.R 51 rd 1 rs1 rs2 0) .sll ("sll " ++ threeRegs rd rs1 rs2)) ∧
    exec (.srl rd rs1 rs2) s = .next (answered s (.R 51 rd 5 rs1 rs2 0) .srl ("srl " ++ threeRegs rd rs1 rs2)) ∧
    exec (.sra rd rs1 rs2) s = .next (answered s (.R 51 rd 5 rs1 rs2 32) .sra ("sra " ++ threeRegs rd rs1 rs2)) ∧
    exec (.slt rd rs1 rs2) s = .next (answered s (.R 51 rd 2 rs1 rs2 0) .slt ("slt " ++ threeRegs rd rs1 rs2)) ∧
    exec (.sltu rd rs1 rs2) s = .next (answered s (.R 51 rd 3 rs1 rs2 0) .sltu ("sltu " ++ threeRegs rd rs1 rs2))

/-- The eight register-immediate instructions: the whole raw immediate is delivered and printed, for the shifts too (43_opselect.md R136
to R143, 44_render.md R184; the function codes of seven are the spec's G1, the key without immediate bits its D23). -/
def Obligations.RegisterImmediateInstructionsAnswer : Prop :=
  ∀ (rd rs1 : RegIdx) (imm : BitVec 12) (s : State),
    exec (.addi rd rs1 imm) s = .next (answered s (.I 19 rd 0 rs1 imm) .addi ("addi " ++ twoRegsNumber rd rs1 imm.toNat)) ∧
    exec (.xori rd rs1 imm) s = .next (answered s (.I 19 rd 4 rs1 imm) .xori ("xori " ++ twoRegsNumber rd rs1 imm.toNat)) ∧
    exec (.ori rd rs1 imm) s = .next (answered s (.I 19 rd 6 rs1 imm) .ori ("ori " ++ twoRegsNumber rd rs1 imm.toNat)) ∧
    exec (.andi rd rs1 imm) s = .next (answered s (.I 19 rd 7 rs1 imm) .andi ("andi " ++ twoRegsNumber rd rs1 imm.toNat)) ∧
    exec (.slli rd rs1 imm) s = .next (answered s (.I 19 rd 1 rs1 imm) .slli ("slli " ++ twoRegsNumber rd rs1 imm.toNat)) ∧
    exec (.srli rd rs1 imm) s = .next (answered s (.I 19 rd 5 rs1 imm) .srli ("srli " ++ twoRegsNumber rd rs1 imm.toNat)) ∧
    exec (.slti rd rs1 imm) s = .next (answered s (.I 19 rd 2 rs1 imm) .slti ("slti " ++ twoRegsNumber rd rs1 imm.toNat)) ∧
    exec (.sltiu rd rs1 imm) s = .next (answered s (.I 19 rd 3 rs1 imm) .sltiu ("sltiu " ++ twoRegsNumber rd rs1 imm.toNat))

/-- The five load instructions (43_opselect.md R144 to R148, 44_render.md R185: the function codes are the spec's G1, the completed text
its decision D8). -/
def Obligations.LoadInstructionsAnswer : Prop :=
  ∀ (rd rs1 : RegIdx) (imm : BitVec 12) (s : State),
    exec (.lb rd rs1 imm) s = .next (answered s (.I 3 rd 0 rs1 imm) .lb ("lb " ++ regMem rd imm.toNat rs1)) ∧
    exec (.lh rd rs1 imm) s = .next (answered s (.I 3 rd 1 rs1 imm) .lh ("lh " ++ regMem rd imm.toNat rs1)) ∧
    exec (.lw rd rs1 imm) s = .next (answered s (.I 3 rd 2 rs1 imm) .lw ("lw " ++ regMem rd imm.toNat rs1)) ∧
    exec (.lbu rd rs1 imm) s = .next (answered s (.I 3 rd 4 rs1 imm) .lbu ("lbu " ++ regMem rd imm.toNat rs1)) ∧
    exec (.lhu rd rs1 imm) s = .next (answered s (.I 3 rd 5 rs1 imm) .lhu ("lhu " ++ regMem rd imm.toNat rs1))

/-- The three store instructions: `rs2` first, the offset `s_imm` by its arithmetic (43_opselect.md R149 to R151, 44_render.md R186: the
spec's decisions D5, D8 and its G1). -/
def Obligations.StoreInstructionsAnswer : Prop :=
  ∀ (immLo : BitVec 5) (rs1 rs2 : RegIdx) (immHi : BitVec 6) (s : State),
    exec (.sb immLo rs1 rs2 immHi) s = .next (answeredS s (.S 35 immLo 0 rs1 rs2 immHi) .sb (sNumber immLo immHi)
      ("sb " ++ regMem rs2 (sNumber immLo immHi) rs1)) ∧
    exec (.sh immLo rs1 rs2 immHi) s = .next (answeredS s (.S 35 immLo 1 rs1 rs2 immHi) .sh (sNumber immLo immHi)
      ("sh " ++ regMem rs2 (sNumber immLo immHi) rs1)) ∧
    exec (.sw immLo rs1 rs2 immHi) s = .next (answeredS s (.S 35 immLo 2 rs1 rs2 immHi) .sw (sNumber immLo immHi)
      ("sw " ++ regMem rs2 (sNumber immLo immHi) rs1))

/-- The six branch instructions: `b_imm` by its arithmetic, decimal and unsigned for all six (43_opselect.md R152 to R157, 44_render.md
R187; the function codes of five are the spec's G1, the base its D10). -/
def Obligations.BranchInstructionsAnswer : Prop :=
  ∀ (immLo : BitVec 5) (rs1 rs2 : RegIdx) (immHi : BitVec 7) (s : State),
    exec (.beq immLo rs1 rs2 immHi) s = .next (answeredB s (.B 99 immLo 0 rs1 rs2 immHi) .beq (bNumber immLo immHi)
      ("beq " ++ twoRegsNumber rs1 rs2 (bNumber immLo immHi))) ∧
    exec (.bne immLo rs1 rs2 immHi) s = .next (answeredB s (.B 99 immLo 1 rs1 rs2 immHi) .bne (bNumber immLo immHi)
      ("bne " ++ twoRegsNumber rs1 rs2 (bNumber immLo immHi))) ∧
    exec (.blt immLo rs1 rs2 immHi) s = .next (answeredB s (.B 99 immLo 4 rs1 rs2 immHi) .blt (bNumber immLo immHi)
      ("blt " ++ twoRegsNumber rs1 rs2 (bNumber immLo immHi))) ∧
    exec (.bge immLo rs1 rs2 immHi) s = .next (answeredB s (.B 99 immLo 5 rs1 rs2 immHi) .bge (bNumber immLo immHi)
      ("bge " ++ twoRegsNumber rs1 rs2 (bNumber immLo immHi))) ∧
    exec (.bltu immLo rs1 rs2 immHi) s = .next (answeredB s (.B 99 immLo 6 rs1 rs2 immHi) .bltu (bNumber immLo immHi)
      ("bltu " ++ twoRegsNumber rs1 rs2 (bNumber immLo immHi))) ∧
    exec (.bgeu immLo rs1 rs2 immHi) s = .next (answeredB s (.B 99 immLo 7 rs1 rs2 immHi) .bgeu (bNumber immLo immHi)
      ("bgeu " ++ twoRegsNumber rs1 rs2 (bNumber immLo immHi)))

/-- `lui` prints its field unshifted; `jal` prints `j_imm` by its arithmetic and keeps the raw field in the variant (43_opselect.md R158,
R159, 44_render.md R188, R189: the spec's decisions D6, D8, D20). -/
def Obligations.LuiAndJalAnswer : Prop :=
  ∀ (rd : RegIdx) (imm : BitVec 20) (s : State),
    exec (.lui rd imm) s = .next (answered s (.U 55 rd imm) .lui
      ("lui x" ++ dec rd.toNat ++ ", " ++ dec imm.toNat)) ∧
    exec (.jal rd imm) s = .next (answeredJ s (.J 111 rd imm) .jal (jNumber imm)
      ("jal x" ++ dec rd.toNat ++ ", " ++ dec (jNumber imm)))

/-- The six fallback classes: no operation, the generic dump, nothing raised, and the reassembled immediate of a store or branch
delivered all the same (43_opselect.md R160 to R165; the dump's text is the parameter GenericDump at its default, D11, log entry 8). For
a fallback instruction that holds the key of a mnemonic, which is ill-formed and which no word decodes to, this is the model's choice and no
rule of the spec (log entry 21). -/
def Obligations.FallbackInstructionsAnswer : Prop :=
  (∀ rd funct3 rs1 rs2 funct7 s, exec (.noneOp rd funct3 rs1 rs2 funct7) s =
    .next (answered s (.R 51 rd funct3 rs1 rs2 funct7) .none (dump (.R 51 rd funct3 rs1 rs2 funct7)))) ∧
  (∀ rd funct3 rs1 imm s,
    exec (.noneLoad rd funct3 rs1 imm) s =
      .next (answered s (.I 3 rd funct3 rs1 imm) .none (dump (.I 3 rd funct3 rs1 imm))) ∧
    exec (.noneJalr rd funct3 rs1 imm) s =
      .next (answered s (.I 103 rd funct3 rs1 imm) .none (dump (.I 103 rd funct3 rs1 imm))) ∧
    exec (.noneSystem rd funct3 rs1 imm) s =
      .next (answered s (.I 115 rd funct3 rs1 imm) .none (dump (.I 115 rd funct3 rs1 imm)))) ∧
  (∀ immLo funct3 rs1 rs2 immHi s, exec (.noneStore immLo funct3 rs1 rs2 immHi) s =
    .next (answeredS s (.S 35 immLo funct3 rs1 rs2 immHi) .none (sNumber immLo immHi)
      (dump (.S 35 immLo funct3 rs1 rs2 immHi)))) ∧
  (∀ immLo funct3 rs1 rs2 immHi s, exec (.noneBranch immLo funct3 rs1 rs2 immHi) s =
    .next (answeredB s (.B 99 immLo funct3 rs1 rs2 immHi) .none (bNumber immLo immHi)
      (dump (.B 99 immLo funct3 rs1 rs2 immHi))))

/-! ## Text -/

/-- The templates of the R, I arithmetic and branch lines, on every word whose operation is one of theirs: the mnemonic, one space, the
operands from the word's fields, comma and space between them (44_render.md R183, R184, R187). -/
def Obligations.LinesFollowTheTemplatesOfRIAndB : Prop :=
  ∀ (w : Word) (d : Decoded), frontEnd w = .ok d →
    (w.toNat % 128 = 51 → d.op ≠ .none →
      d.text = mn d.op ++ " " ++ threeRegs (fieldAt w 7 5) (fieldAt w 15 5) (fieldAt w 20 5)) ∧
    (w.toNat % 128 = 19 →
      d.text = mn d.op ++ " " ++ twoRegsNumber (fieldAt w 7 5) (fieldAt w 15 5) (w.toNat / 2 ^ 20)) ∧
    (w.toNat % 128 = 99 → fieldAt w 12 3 ≠ 2 → fieldAt w 12 3 ≠ 3 →
      d.text = mn d.op ++ " " ++
        twoRegsNumber (fieldAt w 15 5) (fieldAt w 20 5) (bNumber (fieldAt w 7 5) (fieldAt w 25 7)))

/-- `dec` is the decimal numeral of its number: only digits, their value is the number, no leading zero, and zero is the single digit 0
(44_render.md R181). -/
def Obligations.DecimalNumeralsAreCanonical : Prop :=
  ∀ n : Nat,
    (dec n).toList.foldl (fun v c => 10 * v + (c.toNat - 48)) 0 = n ∧
    (∀ c ∈ (dec n).toList, c.isDigit = true) ∧
    (n = 0 → (dec n).toList = ['0']) ∧
    (n ≠ 0 → ∃ c cs, (dec n).toList = c :: cs ∧ c ≠ '0')

/-- The characters of a rendered line: lower-case letters, digits, space, comma, parentheses, and in a generic dump only, the variant
letters, braces (123 and 125), colon and underscore; no trailing space (44_render.md R181; the dump's characters are those of its
default text, D11). -/
def Obligations.LinesUseTheListedCharacters : Prop :=
  ∀ (v : Instruction) (c : Char), c ∈ (render v).toList →
    (c.isLower = true ∨ c.isDigit = true ∨ c ∈ [' ', ',', '(', ')'] ∨
      (select v = .none ∧ (c ∈ ['R', 'I', 'S', 'B', 'U', 'J', ':', '_'] ∨ c.toNat = 123 ∨ c.toNat = 125))) ∧
    (render v).toList.getLast? ≠ some ' '

/-- A consumer can tell from the first character whether a mnemonic was selected: a mnemonic line begins with a lower-case letter and has
no opening brace, a dump begins with an upper-case letter, a space and an opening brace (44_render.md R195 (a), the spec's
derivation; D11). -/
def Obligations.FirstCharacterTellsMnemonicFromDump : Prop :=
  ∀ v : Instruction,
    (select v ≠ .none → (∃ c cs, (render v).toList = c :: cs ∧ c.isLower = true) ∧
      ∀ c ∈ (render v).toList, c.toNat ≠ 123) ∧
    (select v = .none → ∃ c b cs, (render v).toList = c :: ' ' :: b :: cs ∧ c.isUpper = true ∧ b.toNat = 123)

/-- The longest lines: 70 characters for any word that decodes, 20 where a mnemonic is selected, both attained (44_render.md R195 (d),
70_reset_and_hazards.md R234; the spec's derivation, at the dump text of D11). -/
def Obligations.LinesHaveAtMost70Characters : Prop :=
  (∀ (w : Word) (d : Decoded), frontEnd w = .ok d →
    d.text.length ≤ 70 ∧ (d.op ≠ .none → d.text.length ≤ 20)) ∧
  (∃ w t, disasm w = .ok t ∧ t.length = 70) ∧
  (∃ w d, frontEnd w = .ok d ∧ d.op ≠ .none ∧ d.text.length = 20)

/-- The printed line determines the word, up to bit 31 of a store: two words that decode and print the same line are equal, or are stores
that differ in bit 31 alone (44_render.md R195 (b) and (c), the spec's derivation; the texts of D8, D11, D20). -/
def Obligations.PrintedLineDeterminesTheWord : Prop :=
  ∀ (u w : Word) (t : String), disasm u = .ok t → disasm w = .ok t →
    u = w ∨ (u.toNat % 128 = 35 ∧ w.toNat % 128 = 35 ∧ u ^^^ w = 0x80000000)

/-- The register-name table: 32 pairwise different primary names in the calling convention's index order (the spec's G2 and decision D12),
`fp` the second name of index 8 and of no other (10_state.md R20). -/
def Obligations.RegisterNamesAreTheCallingConventions : Prop :=
  (List.range 32).map (fun i => regname (BitVec.ofNat 5 i)) =
    ["zero", "ra", "sp", "gp", "tp", "t0", "t1", "t2", "s0", "s1", "a0", "a1", "a2", "a3", "a4", "a5",
     "a6", "a7", "s2", "s3", "s4", "s5", "s6", "s7", "s8", "s9", "s10", "s11", "t3", "t4", "t5", "t6"] ∧
  (∀ i j : RegIdx, regname i = regname j → i = j) ∧
  (∀ i : RegIdx, regnameSecond i = some "fp" ↔ i = 8) ∧ (∀ i : RegIdx, i ≠ 8 → regnameSecond i = none)
end

