-- ==== Sys2Proof/Laws/State.lean ====
section
/-! SUPPORT. One lemma per field of State per update of it. -/

namespace Sys2Proof.Machine

variable (s : State)

@[simp] theorem deliver_input (d : Decoded) : (s.deliver d).input = s.input := rfl
@[simp] theorem deliver_output (d : Decoded) : (s.deliver d).output = .ok d := rfl
@[simp] theorem deliver_pending (d : Decoded) : (s.deliver d).pending = s.pending := rfl

@[simp] theorem raiseUnknownOpcode_input (v : Opcode) : (s.raiseUnknownOpcode v).input = s.input := rfl
@[simp] theorem raiseUnknownOpcode_output (v : Opcode) :
    (s.raiseUnknownOpcode v).output = .err (.unknownOpcode v) := rfl
@[simp] theorem raiseUnknownOpcode_pending (v : Opcode) : (s.raiseUnknownOpcode v).pending = s.pending := rfl

@[simp] theorem supply_input (ws : List Word) : (s.supply ws).input = s.input := rfl
@[simp] theorem supply_output (ws : List Word) : (s.supply ws).output = s.output := rfl
@[simp] theorem supply_pending (ws : List Word) : (s.supply ws).pending = s.pending ++ ws := rfl

@[simp] theorem supplyBytes_input (bs : List Byte) : (s.supplyBytes bs).input = s.input := rfl
@[simp] theorem supplyBytes_output (bs : List Byte) : (s.supplyBytes bs).output = s.output := rfl
@[simp] theorem supplyBytes_pending (bs : List Byte) :
    (s.supplyBytes bs).pending = s.pending ++ wordsOfBytes bs := rfl

@[simp] theorem withFetchWord_input (nbits w : Nat) : (s.withFetchWord nbits w).input = s.input := rfl
@[simp] theorem withFetchWord_output (nbits w : Nat) : (s.withFetchWord nbits w).output = s.output := rfl

@[simp] theorem accept_output : s.accept.output = s.output := by
  unfold State.accept; split <;> rfl

@[simp] theorem accept_pending : s.accept.pending = s.pending.tail := by
  unfold State.accept; split <;> simp_all

theorem accept_of_nil (h : s.pending = []) : s.accept = s := by
  unfold State.accept; split <;> simp_all

theorem accept_of_cons {w : Word} {ws : List Word} (h : s.pending = w :: ws) :
    s.accept = { s with input := w, pending := ws } := by
  unfold State.accept; split <;> simp_all

theorem state_ext {s t : State} (hi : s.input = t.input) (ho : s.output = t.output) (hp : s.pending = t.pending) :
    s = t := by
  cases s; cases t; simp_all

@[simp] theorem reset_input : State.reset.input = 0 := rfl
@[simp] theorem reset_output : State.reset.output = .err (.unknownOpcode 0) := rfl
@[simp] theorem reset_pending : State.reset.pending = [] := rfl

end Sys2Proof.Machine
end

