-- ==== Sys2Proof/Laws/Ops.lean ====
section
/-! SUPPORT. Once for each shared operation, everything it can do; later proofs cite these lemmas and unfold
nothing. -/

namespace Sys2Proof.Machine

@[simp] theorem bundle_instr (v : Instruction) (op : Op) (text : String) : (bundle v op text).instr = v := rfl
@[simp] theorem bundle_op (v : Instruction) (op : Op) (text : String) : (bundle v op text).op = op := rfl
@[simp] theorem bundle_bImm (v : Instruction) (op : Op) (text : String) : (bundle v op text).bImm = bImmOf v := rfl
@[simp] theorem bundle_sImm (v : Instruction) (op : Op) (text : String) : (bundle v op text).sImm = sImmOf v := rfl
@[simp] theorem bundle_jImm (v : Instruction) (op : Op) (text : String) : (bundle v op text).jImm = jImmOf v := rfl
@[simp] theorem bundle_text (v : Instruction) (op : Op) (text : String) : (bundle v op text).text = text := rfl

variable {s t : State}

theorem answerOp_next {op : Op} {funct3 : Funct3} {funct7 : Funct7} {rd rs1 rs2 : RegIdx}
    (h : answerOp op funct3 funct7 rd rs1 rs2 s = .next t) :
    t = s.deliver (bundle (.R 0b0110011 rd funct3 rs1 rs2 funct7) op (lineRegRegReg op rd rs1 rs2)) := by
  simpa [answerOp, eq_comm] using h

theorem answerOpImm_next {op : Op} {funct3 : Funct3} {rd rs1 : RegIdx} {imm : BitVec 12}
    (h : answerOpImm op funct3 rd rs1 imm s = .next t) :
    t = s.deliver (bundle (.I 0b0010011 rd funct3 rs1 imm) op (lineRegRegNum op rd rs1 imm.toNat)) := by
  simpa [answerOpImm, eq_comm] using h

theorem answerLoad_next {op : Op} {funct3 : Funct3} {rd rs1 : RegIdx} {imm : BitVec 12}
    (h : answerLoad op funct3 rd rs1 imm s = .next t) :
    t = s.deliver (bundle (.I 0b0000011 rd funct3 rs1 imm) op (lineRegMem op rd imm.toNat rs1)) := by
  simpa [answerLoad, eq_comm] using h

theorem answerStore_next {op : Op} {funct3 : Funct3} {immLo : BitVec 5} {rs1 rs2 : RegIdx} {immHi : SImmHi}
    (h : answerStore op funct3 immLo rs1 rs2 immHi s = .next t) :
    t = s.deliver (bundle (.S 0b0100011 immLo funct3 rs1 rs2 immHi) op
      (lineRegMem op rs2 (sImm immLo immHi).toNat rs1)) := by
  simpa [answerStore, eq_comm] using h

theorem answerBranch_next {op : Op} {funct3 : Funct3} {immLo : BitVec 5} {rs1 rs2 : RegIdx} {immHi : BitVec 7}
    (h : answerBranch op funct3 immLo rs1 rs2 immHi s = .next t) :
    t = s.deliver (bundle (.B 0b1100011 immLo funct3 rs1 rs2 immHi) op
      (lineRegRegNum op rs1 rs2 (bImm immLo immHi).toNat)) := by
  simpa [answerBranch, eq_comm] using h

theorem answerDump_next {v : Instruction} (h : answerDump v s = .next t) :
    t = s.deliver (bundle v .none (dump v)) := by
  simpa [answerDump, eq_comm] using h

/-- The two things a step can do: run a row's meaning, or raise the one exception, in the state whose input is the
word taken. -/
theorem step_cases :
    (∃ i, decodeInstr s.accept.input = .ok i ∧ step s = exec i s.accept) ∨
    (∃ v, decodeInstr s.accept.input = .err (.unknownOpcode v) ∧
      step s = .next (s.accept.raiseUnknownOpcode v)) := by
  cases h : decodeInstr s.accept.input with
  | ok i => exact .inl ⟨i, rfl, by simp [step, h]⟩
  | err e =>
    cases e with
    | unknownOpcode v => exact .inr ⟨v, rfl, by simp [step, h]⟩

end Sys2Proof.Machine
end

