-- ==== Sys2Proof/Laws/Encode.lean ====
section
/-! SUPPORT. What a packed word shows through the masks of the opcode table (30_encoding.md R60): the key fields, and no
operand. -/

namespace Sys2Proof

/-- The mask of the R rows keeps opcode, funct3 and funct7. -/
theorem packR_masked (opcode : Opcode) (rd : RegIdx) (funct3 : Funct3) (rs1 rs2 : RegIdx) (funct7 : Funct7) :
    packR opcode rd funct3 rs1 rs2 funct7 &&& 0xFE00707F = packR opcode 0 funct3 0 0 funct7 := by
  ext k hk
  simp only [packR, place, BitVec.getElem_and, BitVec.getElem_or, BitVec.getElem_shiftLeft, BitVec.getElem_setWidth]
  interval_cases k <;> simp

/-- The mask of the R fallback row keeps the opcode. -/
theorem packR_masked_opcode (opcode : Opcode) (rd : RegIdx) (funct3 : Funct3) (rs1 rs2 : RegIdx) (funct7 : Funct7) :
    packR opcode rd funct3 rs1 rs2 funct7 &&& 0x0000007F = packR opcode 0 0 0 0 0 := by
  ext k hk
  simp only [packR, place, BitVec.getElem_and, BitVec.getElem_or, BitVec.getElem_shiftLeft, BitVec.getElem_setWidth]
  interval_cases k <;> simp

theorem packI_masked (opcode : Opcode) (rd : RegIdx) (funct3 : Funct3) (rs1 : RegIdx) (imm : BitVec 12) :
    packI opcode rd funct3 rs1 imm &&& 0x0000707F = packI opcode 0 funct3 0 0 := by
  ext k hk
  simp only [packI, place, BitVec.getElem_and, BitVec.getElem_or, BitVec.getElem_shiftLeft, BitVec.getElem_setWidth]
  interval_cases k <;> simp

theorem packI_masked_opcode (opcode : Opcode) (rd : RegIdx) (funct3 : Funct3) (rs1 : RegIdx) (imm : BitVec 12) :
    packI opcode rd funct3 rs1 imm &&& 0x0000007F = packI opcode 0 0 0 0 := by
  ext k hk
  simp only [packI, place, BitVec.getElem_and, BitVec.getElem_or, BitVec.getElem_shiftLeft, BitVec.getElem_setWidth]
  interval_cases k <;> simp

theorem packS_masked (opcode : Opcode) (immLo : BitVec 5) (funct3 : Funct3) (rs1 rs2 : RegIdx) (immHi : SImmHi) :
    packS opcode immLo funct3 rs1 rs2 immHi &&& 0x0000707F = packS opcode 0 funct3 0 0 0 := by
  ext k hk
  simp only [packS, place, BitVec.getElem_and, BitVec.getElem_or, BitVec.getElem_shiftLeft, BitVec.getElem_setWidth]
  interval_cases k <;> simp

theorem packS_masked_opcode (opcode : Opcode) (immLo : BitVec 5) (funct3 : Funct3) (rs1 rs2 : RegIdx)
    (immHi : SImmHi) :
    packS opcode immLo funct3 rs1 rs2 immHi &&& 0x0000007F = packS opcode 0 0 0 0 0 := by
  ext k hk
  simp only [packS, place, BitVec.getElem_and, BitVec.getElem_or, BitVec.getElem_shiftLeft, BitVec.getElem_setWidth]
  interval_cases k <;> simp

theorem packB_masked (opcode : Opcode) (immLo : BitVec 5) (funct3 : Funct3) (rs1 rs2 : RegIdx) (immHi : BitVec 7) :
    packB opcode immLo funct3 rs1 rs2 immHi &&& 0x0000707F = packB opcode 0 funct3 0 0 0 := by
  ext k hk
  simp only [packB, place, BitVec.getElem_and, BitVec.getElem_or, BitVec.getElem_shiftLeft, BitVec.getElem_setWidth]
  interval_cases k <;> simp

theorem packB_masked_opcode (opcode : Opcode) (immLo : BitVec 5) (funct3 : Funct3) (rs1 rs2 : RegIdx)
    (immHi : BitVec 7) :
    packB opcode immLo funct3 rs1 rs2 immHi &&& 0x0000007F = packB opcode 0 0 0 0 0 := by
  ext k hk
  simp only [packB, place, BitVec.getElem_and, BitVec.getElem_or, BitVec.getElem_shiftLeft, BitVec.getElem_setWidth]
  interval_cases k <;> simp

theorem packU_masked_opcode (opcode : Opcode) (rd : RegIdx) (imm : BitVec 20) :
    packU opcode rd imm &&& 0x0000007F = packU opcode 0 0 := by
  ext k hk
  simp only [packU, place, BitVec.getElem_and, BitVec.getElem_or, BitVec.getElem_shiftLeft, BitVec.getElem_setWidth]
  interval_cases k <;> simp

end Sys2Proof
end

