-- ==== Sys2Proof/Laws/PerInstr.lean ====
section
/-! SUPPORT. The per-instruction family `SelectsItsRow`: the word of an instruction matches its own row of the opcode
table by mask and match (30_encoding.md R60), whatever its operands. -/

namespace Sys2Proof.Laws.SelectsItsRow

/-- Some row of the table carries the instruction's mnemonic and is matched by its word. -/
def Statement (i : Instr) : Prop :=
  ∃ r ∈ mnemonicRows ++ fallbackRows, r.mnemonic = i.mnemonic ∧ r.selects (encode i) = true

theorem add (rd rs1 rs2 : RegIdx) :
    Statement (.add rd rs1 rs2) :=
  ⟨⟨"add", 0xFE00707F, 0x00000033, false⟩, by decide, rfl, by
    simp only [TableRow.selects, encode, Instr.variant, encodeVariant, packR_masked]; decide⟩

theorem sub (rd rs1 rs2 : RegIdx) :
    Statement (.sub rd rs1 rs2) :=
  ⟨⟨"sub", 0xFE00707F, 0x40000033, false⟩, by decide, rfl, by
    simp only [TableRow.selects, encode, Instr.variant, encodeVariant, packR_masked]; decide⟩

theorem xor (rd rs1 rs2 : RegIdx) :
    Statement (.xor rd rs1 rs2) :=
  ⟨⟨"xor", 0xFE00707F, 0x00004033, false⟩, by decide, rfl, by
    simp only [TableRow.selects, encode, Instr.variant, encodeVariant, packR_masked]; decide⟩

theorem or (rd rs1 rs2 : RegIdx) :
    Statement (.or rd rs1 rs2) :=
  ⟨⟨"or", 0xFE00707F, 0x00006033, false⟩, by decide, rfl, by
    simp only [TableRow.selects, encode, Instr.variant, encodeVariant, packR_masked]; decide⟩

theorem and (rd rs1 rs2 : RegIdx) :
    Statement (.and rd rs1 rs2) :=
  ⟨⟨"and", 0xFE00707F, 0x00007033, false⟩, by decide, rfl, by
    simp only [TableRow.selects, encode, Instr.variant, encodeVariant, packR_masked]; decide⟩

theorem sll (rd rs1 rs2 : RegIdx) :
    Statement (.sll rd rs1 rs2) :=
  ⟨⟨"sll", 0xFE00707F, 0x00001033, false⟩, by decide, rfl, by
    simp only [TableRow.selects, encode, Instr.variant, encodeVariant, packR_masked]; decide⟩

theorem srl (rd rs1 rs2 : RegIdx) :
    Statement (.srl rd rs1 rs2) :=
  ⟨⟨"srl", 0xFE00707F, 0x00005033, false⟩, by decide, rfl, by
    simp only [TableRow.selects, encode, Instr.variant, encodeVariant, packR_masked]; decide⟩

theorem sra (rd rs1 rs2 : RegIdx) :
    Statement (.sra rd rs1 rs2) :=
  ⟨⟨"sra", 0xFE00707F, 0x40005033, false⟩, by decide, rfl, by
    simp only [TableRow.selects, encode, Instr.variant, encodeVariant, packR_masked]; decide⟩

theorem slt (rd rs1 rs2 : RegIdx) :
    Statement (.slt rd rs1 rs2) :=
  ⟨⟨"slt", 0xFE00707F, 0x00002033, false⟩, by decide, rfl, by
    simp only [TableRow.selects, encode, Instr.variant, encodeVariant, packR_masked]; decide⟩

theorem sltu (rd rs1 rs2 : RegIdx) :
    Statement (.sltu rd rs1 rs2) :=
  ⟨⟨"sltu", 0xFE00707F, 0x00003033, false⟩, by decide, rfl, by
    simp only [TableRow.selects, encode, Instr.variant, encodeVariant, packR_masked]; decide⟩

theorem addi (rd rs1 : RegIdx) (imm : BitVec 12) :
    Statement (.addi rd rs1 imm) :=
  ⟨⟨"addi", 0x0000707F, 0x00000013, false⟩, by decide, rfl, by
    simp only [TableRow.selects, encode, Instr.variant, encodeVariant, packI_masked]; decide⟩

theorem xori (rd rs1 : RegIdx) (imm : BitVec 12) :
    Statement (.xori rd rs1 imm) :=
  ⟨⟨"xori", 0x0000707F, 0x00004013, false⟩, by decide, rfl, by
    simp only [TableRow.selects, encode, Instr.variant, encodeVariant, packI_masked]; decide⟩

theorem ori (rd rs1 : RegIdx) (imm : BitVec 12) :
    Statement (.ori rd rs1 imm) :=
  ⟨⟨"ori", 0x0000707F, 0x00006013, false⟩, by decide, rfl, by
    simp only [TableRow.selects, encode, Instr.variant, encodeVariant, packI_masked]; decide⟩

theorem andi (rd rs1 : RegIdx) (imm : BitVec 12) :
    Statement (.andi rd rs1 imm) :=
  ⟨⟨"andi", 0x0000707F, 0x00007013, false⟩, by decide, rfl, by
    simp only [TableRow.selects, encode, Instr.variant, encodeVariant, packI_masked]; decide⟩

theorem slli (rd rs1 : RegIdx) (imm : BitVec 12) :
    Statement (.slli rd rs1 imm) :=
  ⟨⟨"slli", 0x0000707F, 0x00001013, false⟩, by decide, rfl, by
    simp only [TableRow.selects, encode, Instr.variant, encodeVariant, packI_masked]; decide⟩

theorem srli (rd rs1 : RegIdx) (imm : BitVec 12) :
    Statement (.srli rd rs1 imm) :=
  ⟨⟨"srli", 0x0000707F, 0x00005013, false⟩, by decide, rfl, by
    simp only [TableRow.selects, encode, Instr.variant, encodeVariant, packI_masked]; decide⟩

theorem slti (rd rs1 : RegIdx) (imm : BitVec 12) :
    Statement (.slti rd rs1 imm) :=
  ⟨⟨"slti", 0x0000707F, 0x00002013, false⟩, by decide, rfl, by
    simp only [TableRow.selects, encode, Instr.variant, encodeVariant, packI_masked]; decide⟩

theorem sltiu (rd rs1 : RegIdx) (imm : BitVec 12) :
    Statement (.sltiu rd rs1 imm) :=
  ⟨⟨"sltiu", 0x0000707F, 0x00003013, false⟩, by decide, rfl, by
    simp only [TableRow.selects, encode, Instr.variant, encodeVariant, packI_masked]; decide⟩

theorem lb (rd rs1 : RegIdx) (imm : BitVec 12) :
    Statement (.lb rd rs1 imm) :=
  ⟨⟨"lb", 0x0000707F, 0x00000003, false⟩, by decide, rfl, by
    simp only [TableRow.selects, encode, Instr.variant, encodeVariant, packI_masked]; decide⟩

theorem lh (rd rs1 : RegIdx) (imm : BitVec 12) :
    Statement (.lh rd rs1 imm) :=
  ⟨⟨"lh", 0x0000707F, 0x00001003, false⟩, by decide, rfl, by
    simp only [TableRow.selects, encode, Instr.variant, encodeVariant, packI_masked]; decide⟩

theorem lw (rd rs1 : RegIdx) (imm : BitVec 12) :
    Statement (.lw rd rs1 imm) :=
  ⟨⟨"lw", 0x0000707F, 0x00002003, false⟩, by decide, rfl, by
    simp only [TableRow.selects, encode, Instr.variant, encodeVariant, packI_masked]; decide⟩

theorem lbu (rd rs1 : RegIdx) (imm : BitVec 12) :
    Statement (.lbu rd rs1 imm) :=
  ⟨⟨"lbu", 0x0000707F, 0x00004003, false⟩, by decide, rfl, by
    simp only [TableRow.selects, encode, Instr.variant, encodeVariant, packI_masked]; decide⟩

theorem lhu (rd rs1 : RegIdx) (imm : BitVec 12) :
    Statement (.lhu rd rs1 imm) :=
  ⟨⟨"lhu", 0x0000707F, 0x00005003, false⟩, by decide, rfl, by
    simp only [TableRow.selects, encode, Instr.variant, encodeVariant, packI_masked]; decide⟩

theorem sb (immLo : BitVec 5) (rs1 rs2 : RegIdx) (immHi : SImmHi) :
    Statement (.sb immLo rs1 rs2 immHi) :=
  ⟨⟨"sb", 0x0000707F, 0x00000023, false⟩, by decide, rfl, by
    simp only [TableRow.selects, encode, Instr.variant, encodeVariant, packS_masked]; decide⟩

theorem sh (immLo : BitVec 5) (rs1 rs2 : RegIdx) (immHi : SImmHi) :
    Statement (.sh immLo rs1 rs2 immHi) :=
  ⟨⟨"sh", 0x0000707F, 0x00001023, false⟩, by decide, rfl, by
    simp only [TableRow.selects, encode, Instr.variant, encodeVariant, packS_masked]; decide⟩

theorem sw (immLo : BitVec 5) (rs1 rs2 : RegIdx) (immHi : SImmHi) :
    Statement (.sw immLo rs1 rs2 immHi) :=
  ⟨⟨"sw", 0x0000707F, 0x00002023, false⟩, by decide, rfl, by
    simp only [TableRow.selects, encode, Instr.variant, encodeVariant, packS_masked]; decide⟩

theorem beq (immLo : BitVec 5) (rs1 rs2 : RegIdx) (immHi : BitVec 7) :
    Statement (.beq immLo rs1 rs2 immHi) :=
  ⟨⟨"beq", 0x0000707F, 0x00000063, false⟩, by decide, rfl, by
    simp only [TableRow.selects, encode, Instr.variant, encodeVariant, packB_masked]; decide⟩

theorem bne (immLo : BitVec 5) (rs1 rs2 : RegIdx) (immHi : BitVec 7) :
    Statement (.bne immLo rs1 rs2 immHi) :=
  ⟨⟨"bne", 0x0000707F, 0x00001063, false⟩, by decide, rfl, by
    simp only [TableRow.selects, encode, Instr.variant, encodeVariant, packB_masked]; decide⟩

theorem blt (immLo : BitVec 5) (rs1 rs2 : RegIdx) (immHi : BitVec 7) :
    Statement (.blt immLo rs1 rs2 immHi) :=
  ⟨⟨"blt", 0x0000707F, 0x00004063, false⟩, by decide, rfl, by
    simp only [TableRow.selects, encode, Instr.variant, encodeVariant, packB_masked]; decide⟩

theorem bge (immLo : BitVec 5) (rs1 rs2 : RegIdx) (immHi : BitVec 7) :
    Statement (.bge immLo rs1 rs2 immHi) :=
  ⟨⟨"bge", 0x0000707F, 0x00005063, false⟩, by decide, rfl, by
    simp only [TableRow.selects, encode, Instr.variant, encodeVariant, packB_masked]; decide⟩

theorem bltu (immLo : BitVec 5) (rs1 rs2 : RegIdx) (immHi : BitVec 7) :
    Statement (.bltu immLo rs1 rs2 immHi) :=
  ⟨⟨"bltu", 0x0000707F, 0x00006063, false⟩, by decide, rfl, by
    simp only [TableRow.selects, encode, Instr.variant, encodeVariant, packB_masked]; decide⟩

theorem bgeu (immLo : BitVec 5) (rs1 rs2 : RegIdx) (immHi : BitVec 7) :
    Statement (.bgeu immLo rs1 rs2 immHi) :=
  ⟨⟨"bgeu", 0x0000707F, 0x00007063, false⟩, by decide, rfl, by
    simp only [TableRow.selects, encode, Instr.variant, encodeVariant, packB_masked]; decide⟩

theorem lui (rd : RegIdx) (imm : BitVec 20) :
    Statement (.lui rd imm) :=
  ⟨⟨"lui", 0x0000007F, 0x00000037, false⟩, by decide, rfl, by
    simp only [TableRow.selects, encode, Instr.variant, encodeVariant, packU_masked_opcode]; decide⟩

theorem jal (rd : RegIdx) (imm : BitVec 20) :
    Statement (.jal rd imm) :=
  ⟨⟨"jal", 0x0000007F, 0x0000006F, false⟩, by decide, rfl, by
    simp only [TableRow.selects, encode, Instr.variant, encodeVariant, packU_masked_opcode]; decide⟩

theorem noneOp (rd : RegIdx) (funct3 : Funct3) (rs1 rs2 : RegIdx) (funct7 : Funct7) :
    Statement (.noneOp rd funct3 rs1 rs2 funct7) :=
  ⟨⟨"none.op", 0x0000007F, 0x00000033, true⟩, by decide, rfl, by
    simp only [TableRow.selects, encode, Instr.variant, encodeVariant, packR_masked_opcode]; decide⟩

theorem noneLoad (rd : RegIdx) (funct3 : Funct3) (rs1 : RegIdx) (imm : BitVec 12) :
    Statement (.noneLoad rd funct3 rs1 imm) :=
  ⟨⟨"none.load", 0x0000007F, 0x00000003, true⟩, by decide, rfl, by
    simp only [TableRow.selects, encode, Instr.variant, encodeVariant, packI_masked_opcode]; decide⟩

theorem noneJalr (rd : RegIdx) (funct3 : Funct3) (rs1 : RegIdx) (imm : BitVec 12) :
    Statement (.noneJalr rd funct3 rs1 imm) :=
  ⟨⟨"none.jalr", 0x0000007F, 0x00000067, true⟩, by decide, rfl, by
    simp only [TableRow.selects, encode, Instr.variant, encodeVariant, packI_masked_opcode]; decide⟩

theorem noneSystem (rd : RegIdx) (funct3 : Funct3) (rs1 : RegIdx) (imm : BitVec 12) :
    Statement (.noneSystem rd funct3 rs1 imm) :=
  ⟨⟨"none.system", 0x0000007F, 0x00000073, true⟩, by decide, rfl, by
    simp only [TableRow.selects, encode, Instr.variant, encodeVariant, packI_masked_opcode]; decide⟩

theorem noneStore (immLo : BitVec 5) (funct3 : Funct3) (rs1 rs2 : RegIdx) (immHi : SImmHi) :
    Statement (.noneStore immLo funct3 rs1 rs2 immHi) :=
  ⟨⟨"none.store", 0x0000007F, 0x00000023, true⟩, by decide, rfl, by
    simp only [TableRow.selects, encode, Instr.variant, encodeVariant, packS_masked_opcode]; decide⟩

theorem noneBranch (immLo : BitVec 5) (funct3 : Funct3) (rs1 rs2 : RegIdx) (immHi : BitVec 7) :
    Statement (.noneBranch immLo funct3 rs1 rs2 immHi) :=
  ⟨⟨"none.branch", 0x0000007F, 0x00000063, true⟩, by decide, rfl, by
    simp only [TableRow.selects, encode, Instr.variant, encodeVariant, packB_masked_opcode]; decide⟩

end Sys2Proof.Laws.SelectsItsRow
end

