-- ==== Sys2Proof/Tests/Slice0.lean ====
section
/-! SUPPORT. The model's own tests: each expected result is written out from 30_encoding.md, from an example of
95_test_vectors.md, or by hand from the rule named beside it. Then a witness for each statement that has
hypotheses. -/

namespace Sys2Proof.Tests

open Sys2Proof.Machine Sys2Proof.Certificates

/-- A state that presents these words next. -/
def presenting (ws : List Word) : State := { State.reset with pending := ws }

/-- Character 123. -/
def opening : String := String.ofList [Char.ofNat 123]

/-- Character 125. -/
def closing : String := String.ofList [Char.ofNat 125]

/-- One step from reset on the word answers this operation and this text. -/
abbrev answers (w : Nat) (op : Op) (text : String) : Prop :=
  (match step (State.reset.withFetchWord 32 w) with
    | .next s =>
      match s.output with
      | .ok d => some (d.op, d.text)
      | .err _ => none
    | .fault _ | .refused _ => none) = some (op, text)

/-- The state after one step. -/
def after (s : State) : Option State :=
  match step s with
  | .next t => some t
  | .fault _ | .refused _ => none

/-- The bundle of a word that decodes. -/
def bundleOf (w : Word) : Option Decoded :=
  match frontEnd w with
  | .ok d => some d
  | .err _ => none

/-- The three reassembled immediates of a word's bundle. -/
def immediatesOf (w : Word) : Option (Option (BitVec 13) × Option (BitVec 12) × Option (BitVec 21)) :=
  (bundleOf w).map fun d => (d.bImm, d.sImm, d.jImm)

/-! ## WellFormed: each check refuses an ill-formed term -/

theorem test_illformed_noneOp : (Instr.noneOp 1 0 2 3 32).wellFormed = false := by decide

theorem test_illformed_noneLoad : (Instr.noneLoad 1 5 2 3).wellFormed = false := by decide

theorem test_illformed_noneStore : (Instr.noneStore 1 2 3 4 5).wellFormed = false := by decide

theorem test_illformed_noneBranch : (Instr.noneBranch 1 7 3 4 5).wellFormed = false := by decide

theorem test_wellformed_fallbacks :
    (Instr.noneOp 1 1 2 3 32).wellFormed = true ∧ (Instr.noneLoad 1 3 2 3).wellFormed = true ∧
    (Instr.noneStore 1 3 3 4 5).wellFormed = true ∧ (Instr.noneBranch 1 2 3 4 5).wellFormed = true := by decide

/-! ## Decoding: a word of every row, written out bit by bit (30_encoding.md R47 to R52, R60) -/

theorem test_decode_add : decodeInstr 0b0000000_11111_01010_000_10101_0110011 = .ok (.add 21 10 31) := by decide

theorem test_decode_sub : decodeInstr 0b0100000_11111_01010_000_10101_0110011 = .ok (.sub 21 10 31) := by decide

theorem test_decode_xor : decodeInstr 0b0000000_11111_01010_100_10101_0110011 = .ok (.xor 21 10 31) := by decide

theorem test_decode_or : decodeInstr 0b0000000_11111_01010_110_10101_0110011 = .ok (.or 21 10 31) := by decide

theorem test_decode_and : decodeInstr 0b0000000_11111_01010_111_10101_0110011 = .ok (.and 21 10 31) := by decide

theorem test_decode_sll : decodeInstr 0b0000000_11111_01010_001_10101_0110011 = .ok (.sll 21 10 31) := by decide

theorem test_decode_srl : decodeInstr 0b0000000_11111_01010_101_10101_0110011 = .ok (.srl 21 10 31) := by decide

theorem test_decode_sra : decodeInstr 0b0100000_11111_01010_101_10101_0110011 = .ok (.sra 21 10 31) := by decide

theorem test_decode_slt : decodeInstr 0b0000000_11111_01010_010_10101_0110011 = .ok (.slt 21 10 31) := by decide

theorem test_decode_sltu : decodeInstr 0b0000000_11111_01010_011_10101_0110011 = .ok (.sltu 21 10 31) := by decide

theorem test_decode_addi : decodeInstr 0b101001010011_11110_000_00001_0010011 = .ok (.addi 1 30 2643) := by decide

theorem test_decode_xori : decodeInstr 0b101001010011_11110_100_00001_0010011 = .ok (.xori 1 30 2643) := by decide

theorem test_decode_ori : decodeInstr 0b101001010011_11110_110_00001_0010011 = .ok (.ori 1 30 2643) := by decide

theorem test_decode_andi : decodeInstr 0b101001010011_11110_111_00001_0010011 = .ok (.andi 1 30 2643) := by decide

theorem test_decode_slli : decodeInstr 0b101001010011_11110_001_00001_0010011 = .ok (.slli 1 30 2643) := by decide

theorem test_decode_srli : decodeInstr 0b101001010011_11110_101_00001_0010011 = .ok (.srli 1 30 2643) := by decide

theorem test_decode_slti : decodeInstr 0b101001010011_11110_010_00001_0010011 = .ok (.slti 1 30 2643) := by decide

theorem test_decode_sltiu : decodeInstr 0b101001010011_11110_011_00001_0010011 = .ok (.sltiu 1 30 2643) := by decide

theorem test_decode_lb : decodeInstr 0b100000000001_01111_000_10000_0000011 = .ok (.lb 16 15 2049) := by decide

theorem test_decode_lh : decodeInstr 0b100000000001_01111_001_10000_0000011 = .ok (.lh 16 15 2049) := by decide

theorem test_decode_lw : decodeInstr 0b100000000001_01111_010_10000_0000011 = .ok (.lw 16 15 2049) := by decide

theorem test_decode_lbu : decodeInstr 0b100000000001_01111_100_10000_0000011 = .ok (.lbu 16 15 2049) := by decide

theorem test_decode_lhu : decodeInstr 0b100000000001_01111_101_10000_0000011 = .ok (.lhu 16 15 2049) := by decide

theorem test_decode_sb : decodeInstr 0b1100001_10001_01110_000_10011_0100011 = .ok (.sb 19 14 17 33) := by decide

theorem test_decode_sh : decodeInstr 0b1100001_10001_01110_001_10011_0100011 = .ok (.sh 19 14 17 33) := by decide

theorem test_decode_sw : decodeInstr 0b1100001_10001_01110_010_10011_0100011 = .ok (.sw 19 14 17 33) := by decide

theorem test_decode_beq : decodeInstr 0b1000101_11000_01001_000_10010_1100011 = .ok (.beq 18 9 24 69) := by decide

theorem test_decode_bne : decodeInstr 0b1000101_11000_01001_001_10010_1100011 = .ok (.bne 18 9 24 69) := by decide

theorem test_decode_blt : decodeInstr 0b1000101_11000_01001_100_10010_1100011 = .ok (.blt 18 9 24 69) := by decide

theorem test_decode_bge : decodeInstr 0b1000101_11000_01001_101_10010_1100011 = .ok (.bge 18 9 24 69) := by decide

theorem test_decode_bltu : decodeInstr 0b1000101_11000_01001_110_10010_1100011 = .ok (.bltu 18 9 24 69) := by decide

theorem test_decode_bgeu : decodeInstr 0b1000101_11000_01001_111_10010_1100011 = .ok (.bgeu 18 9 24 69) := by decide

theorem test_decode_lui : decodeInstr 0b10000000000000000001_11101_0110111 = .ok (.lui 29 524289) := by decide

theorem test_decode_jal : decodeInstr 0b11000000101000000011_01101_1101111 = .ok (.jal 13 788995) := by decide

theorem test_decode_noneOp : decodeInstr 0b0100001_01000_00100_101_00010_0110011 = .ok (.noneOp 2 5 4 8 33) := by decide

theorem test_decode_noneLoad : decodeInstr 0b011111111110_01011_011_00111_0000011 = .ok (.noneLoad 7 3 11 2046) := by decide

theorem test_decode_noneJalr : decodeInstr 0b111111111100_00101_000_00001_1100111 = .ok (.noneJalr 1 0 5 4092) := by decide

theorem test_decode_noneSystem : decodeInstr 0b001100000000_00110_001_00101_1110011 = .ok (.noneSystem 5 1 6 768) := by decide

theorem test_decode_noneStore : decodeInstr 0b0001001_00111_00110_111_10100_0100011 = .ok (.noneStore 20 7 6 7 9) := by decide

theorem test_decode_noneBranch : decodeInstr 0b1000000_00010_00001_010_10000_1100011 = .ok (.noneBranch 16 2 1 2 64) := by decide

theorem test_decode_unknown : decodeInstr 0b00000000000000000001_00101_0010111 = .err (.unknownOpcode 23) := by decide

/-- 95_test_vectors.md P1 slot 2, with one byte left over (log entry 12). -/
theorem test_decodeBytes : decodeBytes [0xB3, 0x83, 0x62, 0x00, 0x13] = .ok (.add 7 5 6, [0x13]) := by decide

theorem test_decodeBytes_rejects :
    decodeBytes [0x0F, 0x00, 0xF0, 0x0F] = .err (.unknownOpcode 15) ∧
    decodeBytes [0xB3, 0x83, 0x62] = .err .incompleteWord ∧ decodeBytes [] = .err .incompleteWord := by decide

/-- Bits above `nbits` are 0; a rejected word is none. -/
theorem test_decodeTableWord :
    decodeTableWord 32 0x007302B3 = some (.add 5 6 7) ∧ decodeTableWord 8 0xFFFFFF13 = some (.addi 0 0 0) ∧
    decodeTableWord 32 0x0FF0000F = none := by decide

/-- 95_test_vectors.md P5. -/
theorem test_encode_store :
    encodeVariant (mkS 0xFEA12C23) = 0x7EA12C23 ∧ encodeVariant (mkS 0x00C502A3) = 0x00C502A3 := by decide

/-! ## One step, on the examples of 95_test_vectors.md: operation and text -/

theorem test_step_add : answers 0x007302B3 .add "add x5, x6, x7" := by decide

theorem test_step_sub : answers 0x407302B3 .sub "sub x5, x6, x7" := by decide

theorem test_step_xor : answers 0x007342B3 .xor "xor x5, x6, x7" := by decide

theorem test_step_or : answers 0x007362B3 .or "or x5, x6, x7" := by decide

theorem test_step_and : answers 0x007372B3 .and "and x5, x6, x7" := by decide

theorem test_step_sll : answers 0x007312B3 .sll "sll x5, x6, x7" := by decide

theorem test_step_srl : answers 0x007352B3 .srl "srl x5, x6, x7" := by decide

theorem test_step_sra : answers 0x407352B3 .sra "sra x5, x6, x7" := by decide

theorem test_step_slt : answers 0x007322B3 .slt "slt x5, x6, x7" := by decide

theorem test_step_sltu : answers 0x007332B3 .sltu "sltu x5, x6, x7" := by decide

theorem test_step_addi : answers 0xFFF10093 .addi "addi x1, x2, 4095" := by decide

theorem test_step_xori : answers 0xFFF5C513 .xori "xori x10, x11, 4095" := by decide

theorem test_step_ori : answers 0x7FF5E513 .ori "ori x10, x11, 2047" := by decide

theorem test_step_andi : answers 0x7FF5F513 .andi "andi x10, x11, 2047" := by decide

theorem test_step_slli : answers 0xFFF11093 .slli "slli x1, x2, 4095" := by decide

theorem test_step_srli : answers 0x40315093 .srli "srli x1, x2, 1027" := by decide

theorem test_step_slti : answers 0x7FF5A513 .slti "slti x10, x11, 2047" := by decide

theorem test_step_sltiu : answers 0xFFFFBF93 .sltiu "sltiu x31, x31, 4095" := by decide

theorem test_step_lb : answers 0x800F8F83 .lb "lb x31, 2048(x31)" := by decide

theorem test_step_lh : answers 0x01049403 .lh "lh x8, 16(x9)" := by decide

theorem test_step_lw : answers 0xFFC12083 .lw "lw x1, 4092(x2)" := by decide

theorem test_step_lbu : answers 0x7FFFCF83 .lbu "lbu x31, 2047(x31)" := by decide

theorem test_step_lhu : answers 0x0104D403 .lhu "lhu x8, 16(x9)" := by decide

theorem test_step_sb : answers 0xFFFF8FA3 .sb "sb x31, 2047(x31)" := by decide

theorem test_step_sh : answers 0xFE731F23 .sh "sh x7, 2046(x6)" := by decide

theorem test_step_sw : answers 0xFE112E23 .sw "sw x1, 2044(x2)" := by decide

theorem test_step_beq : answers 0xFE000EE3 .beq "beq x0, x0, 8188" := by decide

theorem test_step_bne : answers 0xFE0596E3 .bne "bne x11, x0, 8172" := by decide

theorem test_step_blt : answers 0x0020C863 .blt "blt x1, x2, 16" := by decide

theorem test_step_bge : answers 0x0020D863 .bge "bge x1, x2, 16" := by decide

theorem test_step_bltu : answers 0x0020E863 .bltu "bltu x1, x2, 16" := by decide

theorem test_step_bgeu : answers 0xFFFFFFE3 .bgeu "bgeu x31, x31, 8190" := by decide

theorem test_step_lui : answers 0x123452B7 .lui "lui x5, 74565" := by decide

theorem test_step_jal : answers 0xDEADBEEF .jal "jal x29, 1947114" := by decide

theorem test_step_noneOp : answers 0x401111B3 .none ("R " ++ opening ++ " opcode: 51, rd: 3, funct3: 1, rs1: 2, rs2: 1, funct7: 32 " ++ closing) := by decide

theorem test_step_noneLoad : answers 0x0104B403 .none ("I " ++ opening ++ " opcode: 3, rd: 8, funct3: 3, rs1: 9, imm: 16 " ++ closing) := by decide

theorem test_step_noneJalr : answers 0xFFC280E7 .none ("I " ++ opening ++ " opcode: 103, rd: 1, funct3: 0, rs1: 5, imm: 4092 " ++ closing) := by decide

theorem test_step_noneSystem : answers 0x300312F3 .none ("I " ++ opening ++ " opcode: 115, rd: 5, funct3: 1, rs1: 6, imm: 768 " ++ closing) := by decide

theorem test_step_noneStore : answers 0xFFFFFFA3 .none ("S " ++ opening ++ " opcode: 35, imm_lo: 31, funct3: 7, rs1: 31, rs2: 31, imm_hi: 63 " ++ closing) := by decide

theorem test_step_noneBranch : answers 0xFFFFBFE3 .none ("B " ++ opening ++ " opcode: 99, imm_lo: 31, funct3: 3, rs1: 31, rs2: 31, imm_hi: 127 " ++ closing) := by decide

/-- Tables X and P4: the error is a returned value. -/
theorem test_step_unknown :
    after (presenting [0x00001297]) =
      some { input := 0x00001297, output := .err (.unknownOpcode 23), pending := [] } := by decide

/-- With nothing pending the held input is evaluated again (log entries 2 and 3). -/
theorem test_step_reset : after State.reset = some State.reset := by decide

/-- `withFetchWord` puts the word first and keeps the words behind it. -/
theorem test_withFetchWord :
    ((presenting [1, 2]).withFetchWord 32 0x13).pending = [0x13, 2] ∧
    (State.reset.withFetchWord 16 0xFFFF0013).pending = [0x13] := by decide

/-! ## Immediates, extraction, names: tables B, S, J, E, N and FE -/

/-- Tables B1 and B2. -/
theorem test_bImm :
    bImm 1 0 = 2048 ∧ bImm 2 0 = 2 ∧ bImm 16 0 = 16 ∧ bImm 0 1 = 32 ∧ bImm 0 32 = 1024 ∧ bImm 0 64 = 4096 ∧
    bImm 11 21 = 2730 ∧ bImm 29 127 = 8188 := by decide

/-- Table S. -/
theorem test_sImm : sImm 20 0 = 20 ∧ sImm 0 1 = 32 ∧ sImm 21 42 = 1365 ∧ sImm 31 63 = 2047 := by decide

/-- Tables J1 and J2. -/
theorem test_jImm :
    jImm 1 = 4096 ∧ jImm 128 = 524288 ∧ jImm 256 = 2048 ∧ jImm 512 = 2 ∧ jImm 262144 = 1024 ∧
    jImm 524288 = 1048576 ∧ jImm 912091 = 1947114 := by decide

/-- Table FE: immediates of one's own variant, none of another's. -/
theorem test_immediates_present :
    [0xFE112E23, 0xFE0596E3, 0xFFDFF0EF, 0x007302B3].map immediatesOf =
      [some (none, some 2044, none), some (some 8172, none, none), some (none, none, some 2097148),
       some (none, none, none)] := by decide

/-- Table E. -/
theorem test_extract :
    extract 0xDEADBEEF 12 31 = 912091 ∧ extract 0xDEADBEEF 0 0 = 1 ∧ extract 0xFFFFFFFF 31 31 = 1 ∧
    extract 0x12345678 4 27 = 2311527 ∧ extract 0xFFFFFFFF 25 30 = 63 := by decide

/-- A 16-bit container holds `b_imm` with zeros above (40_extract.md R81). -/
theorem test_contain : containerBits 13 = 16 ∧ (contain (bImm 31 127) : BitVec 16) = 8190 := by decide

/-- Table N. -/
theorem test_regname : regname 0 = "zero" ∧ regname 8 = "s0" ∧ regname 27 = "s11" ∧ regname 31 = "t6" ∧
    regnameSecond 8 = some "fp" := by decide

/-- 42_immediates.md R111, R113, R115: the pattern 8188 stands for -4, bit 11 of `s_imm` is 0. -/
theorem test_consumerSigned :
    consumerSigned (bImm 29 127) bImmSignBit = -4 ∧ consumerSigned (sImm 31 63) sImmSignBit = 2047 ∧
    consumerSigned (2048 : BitVec 12) iImmSignBit = -2048 := by decide

theorem test_failed : (presenting []).failed = true ∧
    ({ State.reset with output := .ok (bundle (.U 55 0 0) .lui "lui x0, 0") } : State).failed = false := by decide

/-- `rs2` of an I variant is the wire's own value, and bit 6 of `imm_hi` of a store too (10_state.md R15 (b)). -/
theorem test_ports :
    let free : Ports := ⟨true, 9, .J, 1, 2, 3, 4, 21, 6, 7, 8, 64, 10, .sub, 11, 12, 13, "x"⟩
    (free.ofResult (frontEnd 0xFFF10093)).rs2 = 21 ∧ (free.ofResult (frontEnd 0xFFF10093)).imm12 = 4095 ∧
    (free.ofResult (frontEnd 0x7E112E23)).immHi = 127 ∧
    (free.ofResult (frontEnd 0x0FF0000F)).errValue = 15 := by decide

/-! ## Witnesses: states and operands that meet the hypotheses of the statements -/

theorem wit_StepRunsTheDecodedInstruction :
    ((presenting [0x007302B3, 7]).pending = 0x007302B3 :: [7] ∧ decodeInstr 0x007302B3 = .ok (.add 5 6 7)) ∧
    (({ State.reset with input := 0xFFFFFFF3 } : State).pending = [] ∧
      decodeInstr 0xFFFFFFF3 = .ok (.noneSystem 31 7 31 4095)) ∧
    decodeBytes (0xB3 :: 0x83 :: 0x62 :: 0x00 :: [0x13]) = .ok (.add 7 5 6, [0x13]) ∧
    decodeTableWord 32 0xFFFFFFF3 = some (.noneSystem 31 7 31 4095) := by decide

/-- For MeaningIsTheFrontEndOfTheInstructionsWord and DecodeOfEncodeIsTheInstruction. -/
theorem wit_wellFormed :
    (Instr.add 5 6 7).wellFormed = true ∧ (Instr.noneOp 5 0 6 7 1).wellFormed = true ∧
    (Instr.noneBranch 31 3 31 31 127).wellFormed = true := by decide

theorem wit_StepIsTheFrontEndOfTheWordTaken :
    (presenting [0x13]).pending = 0x13 :: [] ∧ State.reset.pending = [] := by decide

/-- Two states that differ in everything but the word they present. -/
theorem wit_ResultDependsOnTheWordAlone :
    let s := presenting [0x13]
    let t : State := { input := 5, output := .ok (bundle (.U 55 0 0) .lui ""), pending := [0x13, 0x33] }
    s.pending = 0x13 :: [] ∧ t.pending = 0x13 :: [0x33] ∧
    ∃ s' t', step s = .next s' ∧ step t = .next t' := ⟨rfl, rfl, _, _, rfl, rfl⟩

theorem wit_SequenceResultsAreWordByWord :
    (presenting [0x13, 0, 0x33]).pending = [0x13, 0, 0x33] ∧ 0 < [0x13, 0, 0x33].length ∧
    2 < [0x13, 0, 0x33].length := by decide

theorem wit_FailingWordLeavesNoTrace :
    (presenting [0xFFFFFFFF, 0x13]).pending = 0xFFFFFFFF :: 0x13 :: [] ∧
    (0xFFFFFFFF : Word).toNat % 128 ∉ recognised := by decide

theorem wit_HeldInputKeepsTheOutput : State.reset.pending = [] ∧ State.reset.Settled := ⟨rfl, rfl⟩

theorem wit_StepKeepsTheOutputsSettledAndCoherent :
    (presenting [0x13]).Settled ∧ Coherent (presenting [0x13]).output ∧ ∃ t, step (presenting [0x13]) = .next t :=
  ⟨rfl, rfl, _, rfl⟩

theorem wit_UnknownOpcodeExactlyOutsideTheNine :
    (0 : Word).toNat % 128 ∉ recognised ∧ (0xFFFFFFFF : Word).toNat % 128 ∉ recognised ∧
    (0x33 : Word).toNat % 128 ∈ recognised ∧ (0xFFFFFFF3 : Word).toNat % 128 ∈ recognised := by decide

theorem wit_UnknownOpcodeIsAReturnedValue :
    (presenting [0]).pending = 0 :: [] ∧ (0 : Word).toNat % 128 ∉ recognised := by decide

theorem wit_NineOpcodesHaveAFormat :
    3 < 128 ∧ (formatOf (BitVec.ofNat 7 3)).isSome = true ∧ 115 < 128 ∧
    (formatOf (BitVec.ofNat 7 115)).isSome = true := by decide

theorem wit_ExtractIsTheRightAlignedField :
    (0 ≤ 31 ∧ 31 ≤ 31) ∧ (31 ≤ 31 ∧ 31 ≤ 31) ∧ (0 ≤ 0 ∧ 0 ≤ 31) := by decide

/-- Splitting at the last bit, a nested range at the top, a range of one bit. -/
theorem wit_ExtractLaws :
    ((0 ≤ 30 ∧ 30 ≤ 31) ∧ (30 + 1 ≤ 31 ∧ 31 ≤ 31) ∧ (0 ≤ 31 ∧ 31 ≤ 31)) ∧
    ((12 ≤ 31 ∧ 31 ≤ 31) ∧ (0 ≤ 19 ∧ 19 ≤ 31) ∧ 12 + 19 ≤ 31 ∧ (12 + 0 ≤ 12 + 19 ∧ 12 + 19 ≤ 31)) ∧
    extract 0xFFFFFFFF 7 7 = extract 0x80 7 7 := by decide

theorem wit_ContainersAreTheNarrowestAndKeepTheValue :
    8 ≤ 8 ∧ (9 ≤ 9 ∧ 9 ≤ 16) ∧ (9 ≤ 16 ∧ 16 ≤ 16) ∧ (17 ≤ 17 ∧ 17 ≤ 32) ∧ (17 ≤ 32 ∧ 32 ≤ 32) := by decide

theorem wit_OpcodeAloneChoosesTheFormat :
    (0x00000033 : Word).toNat % 128 = (0xFFFFFFB3 : Word).toNat % 128 ∧
    (0x0000000F : Word).toNat % 128 = (0xFFFFFF8F : Word).toNat % 128 := by decide

theorem wit_EachOpcodeHasItsConstructor :
    (0xFFFFFFB3 : Word).toNat % 128 = 51 ∧ (0xFFFFFF93 : Word).toNat % 128 = 19 ∧
    (0xFFFFFF83 : Word).toNat % 128 = 3 ∧ (0xFFFFFFA3 : Word).toNat % 128 = 35 ∧
    (0xFFFFFFE3 : Word).toNat % 128 = 99 ∧ (0xFFFFFFEF : Word).toNat % 128 = 111 ∧
    (0xFFFFFFE7 : Word).toNat % 128 = 103 ∧ (0xFFFFFFB7 : Word).toNat % 128 = 55 ∧
    (0xFFFFFFF3 : Word).toNat % 128 = 115 ∧
    (decode 0xFFFFFFB7 = .ok (.U 55 31 1048575) ∧ (Instruction.U 55 31 1048575).format = .U) := by decide

/-- A store word with bit 31 set and a word of another format. -/
theorem wit_EncodeOfDecodeIsTheWord :
    decodeInstr 0xFE112E23 = .ok (.sw 28 2 1 63) ∧ (0xFE112E23 : Word).toNat % 128 = 35 ∧
    decodeInstr 0xDEADBEEF = .ok (.jal 29 912091) := by decide

theorem wit_DecodeIdentifiesOnlyStoresDifferingInBit31 :
    decode 0xA5A5A5A3 = .ok (.S 35 11 2 11 26 18) ∧ decode 0x25A5A5A3 = .ok (.S 35 11 2 11 26 18) ∧
    (0xA5A5A5A3 : Word).toNat % 128 = 35 := by decide

theorem wit_DecodedInstructionsAreWellFormed :
    decodeInstr 0x027302B3 = .ok (.noneOp 5 0 6 7 1) ∧ decodeInstr 0x0104F403 = .ok (.noneLoad 8 7 9 16) := by decide

theorem wit_MaskAndMatchSelectTheDecodedRow :
    decodeInstr 0x40315093 = .ok (.srli 1 2 1027) ∧ decodeInstr 0 = .err (.unknownOpcode 0) := by decide

theorem wit_NoWordSelectsTwoMnemonicRows :
    ⟨"add", 0xFE00707F, 0x00000033, false⟩ ∈ mnemonicRows ∧
    (⟨"add", 0xFE00707F, 0x00000033, false⟩ : TableRow).selects 0x007302B3 = true := by decide

theorem wit_BranchImmediateIsReassembled :
    (0x80000063 : Word).toNat % 128 = 99 ∧ (1 ≤ 1 ∧ 1 ≤ 4) ∧ (1 ≤ 4 ∧ 4 ≤ 4) ∧ 0 ≤ 5 ∧ 5 ≤ 5 := by decide

theorem wit_BranchImmediateIsABijectionOntoEvenOffsets :
    (0 % 2 = 0 ∧ 0 ≤ 8190 ∧ (bImm 0 0).toNat = 0) ∧ (8190 % 2 = 0 ∧ 8190 ≤ 8190 ∧ (bImm 31 127).toNat = 8190) := by
  decide

theorem wit_StoreImmediateStacksTheHalves : (0 ≤ 4 ∧ 4 ≤ 4) ∧ (0 ≤ 5 ∧ 5 ≤ 5) := by decide

theorem wit_JumpImmediateIsReassembled :
    (0 ≤ 9 ∧ 9 ≤ 9) ∧ (0 ≤ 7 ∧ 7 ≤ 7) ∧ jImm 912091 = jImm 912091 := by decide

theorem wit_ImmediatesArePresentForTheirVariantOnly :
    (bundleOf 0xFE0596E3).isSome = true ∧ (0xFE0596E3 : Word).toNat % 128 = 99 ∧
    (bundleOf 0xFE112E23).isSome = true ∧ (0xFE112E23 : Word).toNat % 128 = 35 ∧
    (bundleOf 0xFFDFF0EF).isSome = true ∧ (0xFFDFF0EF : Word).toNat % 128 = 111 := by decide

/-- Two words of one key that differ elsewhere: of formats R and I, and of U and J with different bits 12 to 14. -/
theorem wit_SelectionReadsOnlyTheDispatchKey :
    ((bundleOf 0x407352B3).isSome = true ∧ (bundleOf 0x41FFDFB3).isSome = true ∧
      fieldAt 0x407352B3 0 7 = fieldAt 0x41FFDFB3 0 7 ∧ fieldAt 0x407352B3 12 3 = fieldAt 0x41FFDFB3 12 3 ∧
      (0x407352B3 : Word).toNat % 128 = 51 ∧ fieldAt 0x407352B3 25 7 = fieldAt 0x41FFDFB3 25 7) ∧
    ((bundleOf 0x40315093).isSome = true ∧ (bundleOf 0x0035D513).isSome = true ∧
      fieldAt 0x40315093 0 7 = fieldAt 0x0035D513 0 7 ∧ fieldAt 0x40315093 12 3 = fieldAt 0x0035D513 12 3 ∧
      (0x40315093 : Word).toNat % 128 ≠ 51) ∧
    ((bundleOf 0x123452B7).isSome = true ∧ (bundleOf 0x00001537).isSome = true ∧
      fieldAt 0x123452B7 0 7 = fieldAt 0x00001537 0 7 ∧ (0x123452B7 : Word).toNat % 128 = 55 ∧
      fieldAt 0x123452B7 12 3 ≠ fieldAt 0x00001537 12 3) ∧
    ((bundleOf 0xDEADBEEF).isSome = true ∧ (bundleOf 0x0000006F).isSome = true ∧
      fieldAt 0xDEADBEEF 0 7 = fieldAt 0x0000006F 0 7 ∧ (0xDEADBEEF : Word).toNat % 128 = 111 ∧
      fieldAt 0xDEADBEEF 12 3 ≠ fieldAt 0x0000006F 12 3) := by decide

theorem wit_AddWordsSelectAdd :
    (presenting [0x01FF8FB3]).pending = 0x01FF8FB3 :: [] ∧ (0x01FF8FB3 : Word).toNat % 128 = 51 ∧
    fieldAt 0x01FF8FB3 12 3 = 0 ∧ fieldAt 0x01FF8FB3 25 7 = 0 := by decide

theorem wit_AddiWordsSelectAddi :
    (presenting [0xFFF10093]).pending = 0xFFF10093 :: [] ∧ (0xFFF10093 : Word).toNat % 128 = 19 ∧
    fieldAt 0xFFF10093 12 3 = 0 := by decide

theorem wit_BeqWordsSelectBeq :
    (presenting [0xFE000EE3]).pending = 0xFE000EE3 :: [] ∧ (0xFE000EE3 : Word).toNat % 128 = 99 ∧
    fieldAt 0xFE000EE3 12 3 = 0 := by decide

theorem wit_JalrAndSystemWordsSelectNone :
    (presenting [0xFFFFFFE7]).pending = 0xFFFFFFE7 :: [] ∧ (0xFFFFFFE7 : Word).toNat % 128 = 103 ∧
    (presenting [0x30200073]).pending = 0x30200073 :: [] ∧ (0x30200073 : Word).toNat % 128 = 115 := by decide

theorem wit_LinesFollowTheTemplatesOfRIAndB :
    ((bundleOf 0x407352B3).map (·.op) = some .sra ∧ (0x407352B3 : Word).toNat % 128 = 51) ∧
    ((bundleOf 0xFFF15093).map (·.op) = some .srli ∧ (0xFFF15093 : Word).toNat % 128 = 19) ∧
    ((bundleOf 0x0020C863).map (·.op) = some .blt ∧ (0x0020C863 : Word).toNat % 128 = 99 ∧
      fieldAt 0x0020C863 12 3 ≠ 2 ∧ fieldAt 0x0020C863 12 3 ≠ 3) := by decide

theorem wit_DecimalNumeralsAreCanonical : 0 = 0 ∧ 1 ≠ 0 ∧ '0' ∈ (dec 10).toList := by decide

theorem wit_LinesUseTheListedCharacters :
    '(' ∈ (render (.I 3 0 0 0 0)).toList ∧ select (.R 51 0 0 0 0 1) = .none ∧
    'R' ∈ (render (.R 51 0 0 0 0 1)).toList := by decide

theorem wit_FirstCharacterTellsMnemonicFromDump :
    select (.J 111 0 0) ≠ .none ∧ 'j' ∈ (render (.J 111 0 0)).toList ∧ select (.S 35 0 7 0 0 0) = .none := by decide

theorem wit_LinesHaveAtMost70Characters :
    (bundleOf 0xFFFFBFE3).map (·.op) = some .none ∧ (bundleOf 0xFFFFFFE3).map (·.op) = some .bgeu := by decide

/-- Two different stores that print one line. -/
theorem wit_PrintedLineDeterminesTheWord :
    disasm 0xFE112E23 = .ok "sw x1, 2044(x2)" ∧ disasm 0x7E112E23 = .ok "sw x1, 2044(x2)" ∧
    (0xFE112E23 : Word) ≠ 0x7E112E23 := by decide

theorem wit_RegisterNamesAreTheCallingConventions : regname 8 = regname 8 ∧ (31 : RegIdx) ≠ 8 := by decide

end Sys2Proof.Tests
end

