-- ==== Sys2Proof/Proofs/Classification.lean ====
section
/-! SUPPORT. Decoding as its two parts, the format of the opcode field and the constructor of that format (41_decode.md
R90), and the fields of a word by the arithmetic of 40_extract.md R80. -/

open Sys2Proof Sys2Proof.Machine Sys2Proof.Certificates

namespace Sys2Proof.Proofs

variable {u w : Word} {f : Format}

/-- `extract` is the arithmetic field of R80. -/
theorem extract_eq_fieldAt (w : Word) (lo hi : Nat) (valid : lo ≤ hi ∧ hi ≤ 31) :
    extract w lo hi valid = fieldAt w lo (hi - lo + 1) := by
  apply BitVec.eq_of_toNat_eq
  simp [extract, fieldAt, BitVec.extractLsb, Nat.shiftRight_eq_div_pow]

theorem extract_eq_extract_iff {lo hi : Nat} (valid : lo ≤ hi ∧ hi ≤ 31) :
    extract u lo hi valid = extract w lo hi valid ↔ fieldAt u lo (hi - lo + 1) = fieldAt w lo (hi - lo + 1) := by
  rw [extract_eq_fieldAt, extract_eq_fieldAt]

@[simp] theorem opcodeField_toNat (w : Word) : (extract w 0 6 : Opcode).toNat = w.toNat % 128 := by
  simp [extract, BitVec.extractLsb]

theorem opcodeField_eq_iff :
    (extract u 0 6 : Opcode) = extract w 0 6 ↔ u.toNat % 128 = w.toNat % 128 := by
  rw [← BitVec.toNat_inj, opcodeField_toNat, opcodeField_toNat]

/-- The constructor of a format (41_decode.md R100 to R105). -/
def construct : Format → Word → Instruction
  | .R => mkR
  | .I => mkI
  | .S => mkS
  | .B => mkB
  | .U => mkU
  | .J => mkJ

@[simp] theorem construct_format : (construct f w).format = f := by cases f <;> rfl

@[simp] theorem construct_opcode : (construct f w).opcode = extract w 0 6 := by cases f <;> rfl

/-- The nine arms of `decode` are those of `formatOf`. -/
theorem decode_eq_elim_formatOf (w : Word) :
    decode w = (formatOf (extract w 0 6)).elim (.err (.unknownOpcode (extract w 0 6))) (fun f => .ok (construct f w)) := by
  unfold decode formatOf
  split <;> simp [construct, *]

theorem decode_of_format (h : formatOf (extract w 0 6) = some f) : decode w = .ok (construct f w) := by
  rw [decode_eq_elim_formatOf, h]; rfl

theorem decode_of_no_format (h : formatOf (extract w 0 6) = none) :
    decode w = .err (.unknownOpcode (extract w 0 6)) := by
  rw [decode_eq_elim_formatOf, h]; rfl

theorem decode_ok_iff {v : Instruction} :
    decode w = .ok v ↔ ∃ f, formatOf (extract w 0 6) = some f ∧ v = construct f w := by
  cases h : formatOf (extract w 0 6) with
  | none => simp [decode_of_no_format h]
  | some f => simp [decode_of_format h, eq_comm]

/-- What a bundle of the block is made of (10_state.md R14). -/
theorem frontEnd_ok_iff {d : Decoded} :
    frontEnd w = .ok d ↔ ∃ v, decode w = .ok v ∧ d = bundle v (select v) (render v) := by
  unfold frontEnd
  cases decode w with
  | ok v => simp [bundle, eq_comm]
  | err e => simp

end Sys2Proof.Proofs

open Sys2Proof.Proofs

/-- Settles O20: equal opcode fields have the same format or none, which alone decides the variant or the error. -/
theorem opcodeAloneChoosesTheFormat : Obligations.OpcodeAloneChoosesTheFormat := by
  intro u w hlow
  have hopc : (extract u 0 6 : Opcode) = extract w 0 6 := opcodeField_eq_iff.mpr hlow
  cases hf : formatOf (extract w 0 6) with
  | some f =>
    exact .inl ⟨_, _, decode_of_format (hopc ▸ hf), decode_of_format hf, by simp, by simpa using hopc⟩
  | none =>
    exact .inr ⟨_, hopc ▸ decode_of_no_format (hopc ▸ hf), decode_of_no_format hf⟩

end

