-- ==== Sys2Proof/Proofs/Selection.lean ====
section
/-! SUPPORT. The dispatch key of each format (30_encoding.md R59): what `select` reads of a constructed instruction. -/

open Sys2Proof Sys2Proof.Machine Sys2Proof.Certificates

namespace Sys2Proof.Proofs

variable {u w : Word} {f : Format}

/-- Opcode 51 alone has format R (30_encoding.md R54). -/
theorem opcode_of_format_R {opcode : Opcode} (h : formatOf opcode = some .R) : opcode = 51 := by
  unfold formatOf at h
  split at h <;> simp_all

theorem opcode_ne_of_format_ne {g : Format} {n : Nat} (hf : formatOf (extract w 0 6) = some f)
    (hg : formatOf (BitVec.ofNat 7 n) = some g) (hne : f ≠ g) : w.toNat % 128 ≠ n := by
  rintro rfl
  rw [← opcodeField_toNat, BitVec.ofNat_toNat, BitVec.setWidth_eq, hf] at hg
  exact hne (Option.some.inj hg)

/-- Two words that agree on the key of a format select the same operation in it. -/
theorem select_construct_congr (hopc : (extract u 0 6 : Opcode) = extract w 0 6)
    (h3 : f ≠ .U → f ≠ .J → (extract u 12 14 : Funct3) = extract w 12 14)
    (h7 : f = .R → (extract u 25 31 : Funct7) = extract w 25 31) :
    select (construct f u) = select (construct f w) := by
  cases f with
  | R => exact congrArg₂ selectR (h3 nofun nofun) (h7 rfl)
  | I => exact congrArg₂ selectI hopc (h3 nofun nofun)
  | S => exact congrArg selectS (h3 nofun nofun)
  | B => exact congrArg selectB (h3 nofun nofun)
  | U => rfl
  | J => rfl

end Sys2Proof.Proofs

open Sys2Proof.Proofs

/-- Settles O38: the two words have one format, and on it the stated key is all that `select` reads. -/
theorem selectionReadsOnlyTheDispatchKey : Obligations.SelectionReadsOnlyTheDispatchKey := by
  intro u w c d hc hd hopc h3 h7
  obtain ⟨_, hu, rfl⟩ := frontEnd_ok_iff.mp hc
  obtain ⟨_, hw, rfl⟩ := frontEnd_ok_iff.mp hd
  obtain ⟨f, hf, rfl⟩ := decode_ok_iff.mp hu
  obtain ⟨g, hg, rfl⟩ := decode_ok_iff.mp hw
  have hopc' : (extract u 0 6 : Opcode) = extract w 0 6 := (extract_eq_extract_iff _).mpr hopc
  obtain rfl : f = g := Option.some.inj (hf.symm.trans (hopc' ▸ hg))
  apply select_construct_congr hopc'
  · intro hU hJ
    have h55 : u.toNat % 128 ≠ 55 := opcode_ne_of_format_ne hf rfl hU
    have h111 : u.toNat % 128 ≠ 111 := opcode_ne_of_format_ne hf rfl hJ
    exact (extract_eq_extract_iff _).mpr (h3 h55 h111)
  · rintro rfl
    have h51 : u.toNat % 128 = 51 := by rw [← opcodeField_toNat, opcode_of_format_R hf]; rfl
    exact (extract_eq_extract_iff _).mpr (h7 h51)

end

