-- ==== Sys2Proof/Proofs/Extraction.lean ====
section
/-! SUPPORT. The value and the bits of the arithmetic field (40_extract.md R80), and of a value in its container
(40_extract.md R81). -/

open Sys2Proof Sys2Proof.Machine Sys2Proof.Certificates

namespace Sys2Proof.Proofs

@[simp] theorem fieldAt_toNat (w : Word) (lo n : Nat) : (fieldAt w lo n).toNat = w.toNat / 2 ^ lo % 2 ^ n :=
  BitVec.toNat_ofNat ..

@[simp] theorem fieldAt_getLsbD (w : Word) (lo n k : Nat) :
    (fieldAt w lo n).getLsbD k = (decide (k < n) && w.getLsbD (lo + k)) := by
  rw [fieldAt, BitVec.getLsbD_ofNat, Nat.testBit_div_two_pow, Nat.add_comm, BitVec.testBit_toNat]

theorem containerBits_of_le_8 {n : Nat} (h : n ≤ 8) : containerBits n = 8 := if_pos h

theorem containerBits_of_9_to_16 {n : Nat} (hlo : 9 ≤ n) (hhi : n ≤ 16) : containerBits n = 16 := by
  rw [containerBits, if_neg (by omega), if_pos hhi]

theorem containerBits_of_17_le {n : Nat} (h : 17 ≤ n) : containerBits n = 32 := by
  rw [containerBits, if_neg (by omega), if_neg (by omega)]

/-- A container holds the width it is chosen for; 32 bits is the widest there is. -/
theorem le_containerBits {n : Nat} (h : n ≤ 32) : n ≤ containerBits n := by
  unfold containerBits
  split
  case isTrue h8 => exact h8
  case isFalse =>
    split
    case isTrue h16 => exact h16
    case isFalse => exact h

theorem contain_toNat {n : Nat} (v : BitVec n) (h : n ≤ 32) : (contain v).toNat = v.toNat :=
  BitVec.toNat_setWidth_of_le (le_containerBits h)

theorem contain_getLsbD_of_ge {n : Nat} (v : BitVec n) {k : Nat} (h : n ≤ k) : (contain v).getLsbD k = false := by
  rw [contain, BitVec.getLsbD_setWidth, BitVec.getLsbD_of_ge v k h, Bool.and_false]

end Sys2Proof.Proofs

open Sys2Proof.Proofs

/-- Settles O16: `extract` is the arithmetic field, whose value and bits are known; `k < hi - lo + 1` is `k ≤ hi - lo`. -/
theorem extractIsTheRightAlignedField : Obligations.ExtractIsTheRightAlignedField := by
  intro w lo hi h
  rw [extract_eq_fieldAt]
  exact ⟨fieldAt_toNat .., fun k => by simp only [fieldAt_getLsbD, Nat.lt_succ_iff]⟩

/-- Settles O18: one range of widths per container, and since the width fits the container, zero-extension to it keeps
the value. -/
theorem containersAreTheNarrowestAndKeepTheValue : Obligations.ContainersAreTheNarrowestAndKeepTheValue :=
  ⟨fun _ => containerBits_of_le_8, fun _ => containerBits_of_9_to_16, fun _ hlo _ => containerBits_of_17_le hlo,
    fun _ v hn => ⟨contain_toNat v hn, fun _ => contain_getLsbD_of_ge v⟩⟩

end

