-- ==== Sys2Proof/Proofs/Constructors.lean ====
section
/-! SUPPORT. The arm of `decode` that an opcode value selects (41_decode.md R91 to R99, R106), and what the functions
after `decode` make of an error. -/

open Sys2Proof Sys2Proof.Machine Sys2Proof.Certificates

namespace Sys2Proof.Proofs

variable {w : Word} {n : Nat}

theorem opcodeField_eq_ofNat (h : w.toNat % 128 = n) : (extract w 0 6 : Opcode) = BitVec.ofNat 7 n := by
  rw [← h, ← opcodeField_toNat, BitVec.ofNat_toNat, BitVec.setWidth_eq]

/-- The nine values of 30_encoding.md R54, among the 128 a 7-bit field can hold. -/
theorem formatOf_isSome_iff (opcode : Opcode) : (formatOf opcode).isSome = true ↔ opcode.toNat ∈ recognised := by
  revert opcode
  decide

theorem recognised_iff_exists_format :
    w.toNat % 128 ∈ recognised ↔ ∃ f, formatOf (extract w 0 6) = some f := by
  rw [← opcodeField_toNat, ← formatOf_isSome_iff, Option.isSome_iff_exists]

theorem decode_of_recognised (h : w.toNat % 128 ∈ recognised) : ∃ v, decode w = .ok v := by
  obtain ⟨f, hf⟩ := recognised_iff_exists_format.mp h
  exact ⟨construct f w, decode_of_format hf⟩

theorem decode_of_not_recognised (h : w.toNat % 128 ∉ recognised) :
    decode w = .err (.unknownOpcode (fieldAt w 0 7)) := by
  have hnone : formatOf (extract w 0 6) = none :=
    Option.eq_none_iff_forall_ne_some.mpr fun f hf => h (recognised_iff_exists_format.mpr ⟨f, hf⟩)
  rw [decode_of_no_format hnone, extract_eq_fieldAt]

theorem frontEnd_of_decode_err {e : DecodeError} (h : decode w = .err e) : frontEnd w = .err e := by
  rw [frontEnd, h]

theorem disasm_of_decode_err {e : DecodeError} (h : decode w = .err e) : disasm w = .err e := by
  rw [disasm, h]

/-- An opcode value of format `f` selects the constructor of `f`, whatever the other 25 bits. -/
theorem decode_of_opcode {f : Format} (hn : w.toNat % 128 = n) (hf : formatOf (BitVec.ofNat 7 n) = some f) :
    decode w = .ok (construct f w) :=
  decode_of_format (opcodeField_eq_ofNat hn ▸ hf)

/-- Opcode 55 alone has format U (30_encoding.md R54). -/
theorem opcode_of_format_U {opcode : Opcode} (h : formatOf opcode = some .U) : opcode = 55 := by
  unfold formatOf at h
  split at h <;> simp_all

theorem opcode_of_decode_U {v : Instruction} (hdec : decode w = .ok v) (hU : v.format = .U) : w.toNat % 128 = 55 := by
  obtain ⟨f, hf, rfl⟩ := decode_ok_iff.mp hdec
  obtain rfl : f = .U := construct_format.symm.trans hU
  rw [← opcodeField_toNat, opcode_of_format_U hf]
  rfl

/-- Of the opcodes of format I, only 19 (OP-IMM) and 3 (LOAD) have mnemonics (43_opselect.md R162, R163). -/
theorem selectI_eq_none {opcode : Opcode} (h19 : opcode ≠ 19) (h3 : opcode ≠ 3) (funct3 : Funct3) :
    selectI opcode funct3 = .none := by
  simp only [selectI, Prod.mk.injEq, h19, h3, false_and, if_false]

theorem select_mkI_eq_none (hn : w.toNat % 128 = n) (h19 : BitVec.ofNat 7 n ≠ 19) (h3 : BitVec.ofNat 7 n ≠ 3) :
    select (mkI w) = .none := by
  rw [← opcodeField_eq_ofNat hn] at h19 h3
  exact selectI_eq_none h19 h3 _

end Sys2Proof.Proofs

open Sys2Proof.Proofs

/-- Settles O13: the nine values are those with a format; outside them `decode` fails, and `frontEnd` and `disasm` pass its
error on. -/
theorem unknownOpcodeExactlyOutsideTheNine : Obligations.UnknownOpcodeExactlyOutsideTheNine := by
  intro w
  refine ⟨fun hout => ?_, decode_of_recognised⟩
  have herr := decode_of_not_recognised hout
  exact ⟨herr, frontEnd_of_decode_err herr, disasm_of_decode_err herr⟩

/-- Settles O21: every field of a constructor is an `extract`, which is the arithmetic field. -/
theorem constructorsTakeTheFieldsOfTheirFormat : Obligations.ConstructorsTakeTheFieldsOfTheirFormat := by
  intro w
  simp only [mkR, mkI, mkB, mkU, mkJ, extract_eq_fieldAt, and_self]

/-- Settles O23: each opcode value has its format, hence its constructor. Beside: the opcode field of a load is 3, opcodes
103 and 115 have no key in `selectI`, and 55 is the one opcode of format U. -/
theorem eachOpcodeHasItsConstructor : Obligations.EachOpcodeHasItsConstructor := by
  intro w
  refine ⟨?op, ?opImm, ?load, ?store, ?branch, ?jal, ?jalr, ?lui, ?onlyLui, ?system⟩
  case op => exact fun h => decode_of_opcode h rfl
  case opImm => exact fun h => decode_of_opcode h rfl
  case load => exact fun h => ⟨decode_of_opcode h rfl, opcodeField_eq_ofNat h⟩
  case store => exact fun h => decode_of_opcode h rfl
  case branch => exact fun h => decode_of_opcode h rfl
  case jal => exact fun h => decode_of_opcode h rfl
  case jalr => exact fun h => ⟨decode_of_opcode h rfl, select_mkI_eq_none h (by decide) (by decide)⟩
  case lui => exact fun h => decode_of_opcode h rfl
  case onlyLui => exact fun _ => opcode_of_decode_U
  case system => exact fun h => ⟨decode_of_opcode h rfl, select_mkI_eq_none h (by decide) (by decide)⟩

end

