-- ==== Sys2Proof/Proofs/BranchImmediate.lean ====
section
/-! SUPPORT. The slices of a word and of a raw field (40_extract.md R80, R85), and `b_imm` slice by slice and by value
(42_immediates.md R110). -/

open Sys2Proof Sys2Proof.Machine Sys2Proof.Certificates

namespace Sys2Proof.Proofs

/-- A concatenation by value: the high part shifted, plus the low part. -/
theorem toNat_append_eq_add {m n : Nat} (x : BitVec m) (y : BitVec n) :
    (x ++ y).toNat = x.toNat * 2 ^ n + y.toNat := by
  rw [BitVec.toNat_append, ← Nat.shiftLeft_add_eq_or_of_lt y.isLt, Nat.shiftLeft_eq]

theorem extract_getLsbD (w : Word) {lo hi k : Nat} (valid : lo ≤ hi ∧ hi ≤ 31) (hk : k ≤ hi - lo) :
    (extract w lo hi valid).getLsbD k = w.getLsbD (lo + k) := by
  rw [extract_eq_fieldAt, fieldAt_getLsbD, decide_eq_true (Nat.lt_succ_of_le hk), Bool.true_and]

theorem extract_asWord_getLsbD {n : Nat} (field : BitVec n) {lo hi k : Nat} (valid : lo ≤ hi ∧ hi ≤ 31)
    (hk : k ≤ hi - lo) : (extract (asWord field) lo hi valid).getLsbD k = field.getLsbD (lo + k) := by
  have hword : lo + k < 32 := by omega
  rw [extract_getLsbD _ valid hk, asWord, BitVec.getLsbD_setWidth, decide_eq_true hword, Bool.true_and]

theorem extract_asWord_toNat {n : Nat} (field : BitVec n) {lo hi : Nat} (valid : lo ≤ hi ∧ hi ≤ 31) (hn : n ≤ 32) :
    (extract (asWord field) lo hi valid).toNat = field.toNat / 2 ^ lo % 2 ^ (hi - lo + 1) := by
  rw [extract_eq_fieldAt, fieldAt_toNat, asWord, BitVec.toNat_setWidth_of_le hn]

section
variable (immLo : BitVec 5) (immHi : BitVec 7) {k : Nat}

theorem bImm_getLsbD_0 : (bImm immLo immHi).getLsbD 0 = false := by
  rw [bImm, BitVec.getLsbD_cast, BitVec.getLsbD_append]
  rfl

theorem bImm_getLsbD_of_1_to_4 (h1 : 1 ≤ k) (h4 : k ≤ 4) : (bImm immLo immHi).getLsbD k = immLo.getLsbD k := by
  simp (disch := omega) only [bImm, BitVec.getLsbD_cast, BitVec.getLsbD_append, if_pos, if_neg, extract_asWord_getLsbD]
  congr 1
  omega

theorem bImm_getLsbD_of_5_to_10 (h5 : k ≤ 5) : (bImm immLo immHi).getLsbD (5 + k) = immHi.getLsbD k := by
  simp (disch := omega) only [bImm, BitVec.getLsbD_cast, BitVec.getLsbD_append, if_pos, if_neg, extract_asWord_getLsbD]
  congr 1
  omega

theorem bImm_getLsbD_11 : (bImm immLo immHi).getLsbD 11 = immLo.getLsbD 0 := by
  simp (disch := omega) only [bImm, BitVec.getLsbD_cast, BitVec.getLsbD_append, if_pos, if_neg, extract_asWord_getLsbD]

theorem bImm_getLsbD_12 : (bImm immLo immHi).getLsbD 12 = immHi.getLsbD 6 := by
  simp (disch := omega) only [bImm, BitVec.getLsbD_cast, BitVec.getLsbD_append, if_neg, extract_asWord_getLsbD]

theorem bImm_toNat : (bImm immLo immHi).toNat = bNumber immLo immHi := by
  simp (disch := omega) only [bImm, BitVec.toNat_cast, toNat_append_eq_add, extract_asWord_toNat, bNumber,
    BitVec.ofNat_eq_ofNat, BitVec.toNat_ofNat]
  omega

end

/-- A BRANCH word delivers the `b_imm` of its two raw fields; `funct3` takes no part (42_immediates.md R112 (d)). -/
theorem frontEnd_of_branch_opcode {w : Word} (h : w.toNat % 128 = 99) :
    ∃ d, frontEnd w = .ok d ∧ d.bImm = some (bImm (extract w 7 11) (extract w 25 31)) :=
  ⟨_, frontEnd_ok_iff.mpr ⟨mkB w, decode_of_opcode h rfl, rfl⟩, rfl⟩

end Sys2Proof.Proofs

open Sys2Proof.Proofs

/-- Settles O32: each bit of `b_imm` lies in one slice of the concatenation, whose value is the sum of the shifted slices;
a BRANCH word gives the raw fields from its bits 7 to 11 and 25 to 31. -/
theorem branchImmediateIsReassembled : Obligations.BranchImmediateIsReassembled := by
  constructor
  case left =>
    intro immLo immHi
    exact ⟨bImm_getLsbD_0 .., fun _ => bImm_getLsbD_of_1_to_4 _ _, fun _ => bImm_getLsbD_of_5_to_10 _ _,
      bImm_getLsbD_11 .., bImm_getLsbD_12 .., bImm_toNat ..⟩
  case right =>
    intro w hbranch
    obtain ⟨d, hd, hb⟩ := frontEnd_of_branch_opcode hbranch
    exact ⟨d, _, hd, hb, bImm_getLsbD_0 ..,
      fun _ h1 h4 => (bImm_getLsbD_of_1_to_4 _ _ h1 h4).trans (extract_getLsbD w _ h4),
      fun _ h5 => (bImm_getLsbD_of_5_to_10 _ _ h5).trans (extract_getLsbD w _ (Nat.le_succ_of_le h5)),
      (bImm_getLsbD_11 ..).trans (extract_getLsbD w _ (Nat.zero_le _)),
      (bImm_getLsbD_12 ..).trans (extract_getLsbD w _ (Nat.le_refl _))⟩

end

