-- ==== Sys2Proof/Proofs/OpSelect.lean ====
section
/-! SUPPORT. The step on a presented word, the row a word of the OP, OP-IMM and BRANCH classes decodes to, and what
those families answer in the forms of the statements (43_opselect.md R126 to R143, R152 to R157). -/

open Sys2Proof Sys2Proof.Machine Sys2Proof.Certificates

namespace Sys2Proof.Proofs

variable {w : Word}

/-- A step on a presented word runs the word's row in the state that has taken the word. -/
theorem step_of_pending {s : State} {ws : List Word} {i : Instr} (hp : s.pending = w :: ws)
    (hi : decodeInstr w = .ok i) : step s = exec i { s with input := w, pending := ws } := by
  simp only [step, accept_of_cons s hp, hi]

/-! ## The row of a class -/

theorem decodeInstr_of_op_opcode (h : w.toNat % 128 = 51) :
    decodeInstr w =
      .ok (rowOp (fieldAt w 7 5) (fieldAt w 12 3) (fieldAt w 15 5) (fieldAt w 20 5) (fieldAt w 25 7)) := by
  simp only [decodeInstr, opcodeField_eq_ofNat h, extract_eq_fieldAt]

theorem decodeInstr_of_opImm_opcode (h : w.toNat % 128 = 19) :
    decodeInstr w = .ok (rowOpImm (fieldAt w 7 5) (fieldAt w 12 3) (fieldAt w 15 5) (fieldAt w 20 12)) := by
  simp only [decodeInstr, opcodeField_eq_ofNat h, extract_eq_fieldAt]

theorem decodeInstr_of_branch_opcode (h : w.toNat % 128 = 99) :
    decodeInstr w =
      .ok (rowBranch (fieldAt w 7 5) (fieldAt w 12 3) (fieldAt w 15 5) (fieldAt w 20 5) (fieldAt w 25 7)) := by
  simp only [decodeInstr, opcodeField_eq_ofNat h, extract_eq_fieldAt]

/-! ## The printed lines and the answers -/

/-- The statements write the separator and the register's `x` as one literal, the model as two. -/
theorem comma_x : ", x" = ", " ++ "x" := rfl

theorem lineRegRegReg_eq (op : Op) (rd rs1 rs2 : RegIdx) :
    lineRegRegReg op rd rs1 rs2 = mn op ++ " " ++ threeRegs rd rs1 rs2 := by
  simp only [lineRegRegReg, threeRegs, reg, comma_x, String.append_assoc]

theorem lineRegRegNum_eq (op : Op) (a b : RegIdx) (number : Nat) :
    lineRegRegNum op a b number = mn op ++ " " ++ twoRegsNumber a b number := by
  simp only [lineRegRegNum, twoRegsNumber, reg, comma_x, String.append_assoc]

section
variable (op : Op) (funct3 : Funct3) (s : State)

theorem answerOp_eq (funct7 : Funct7) (rd rs1 rs2 : RegIdx) :
    answerOp op funct3 funct7 rd rs1 rs2 s =
      .next (answered s (.R 51 rd funct3 rs1 rs2 funct7) op (mn op ++ " " ++ threeRegs rd rs1 rs2)) := by
  rw [answerOp, lineRegRegReg_eq]
  rfl

theorem answerOpImm_eq (rd rs1 : RegIdx) (imm : BitVec 12) :
    answerOpImm op funct3 rd rs1 imm s =
      .next (answered s (.I 19 rd funct3 rs1 imm) op (mn op ++ " " ++ twoRegsNumber rd rs1 imm.toNat)) := by
  rw [answerOpImm, lineRegRegNum_eq]
  rfl

theorem answerBranch_eq (immLo : BitVec 5) (rs1 rs2 : RegIdx) (immHi : BitVec 7) :
    answerBranch op funct3 immLo rs1 rs2 immHi s =
      .next (answeredB s (.B 99 immLo funct3 rs1 rs2 immHi) op (bNumber immLo immHi)
        (mn op ++ " " ++ twoRegsNumber rs1 rs2 (bNumber immLo immHi))) := by
  have hb : bImm immLo immHi = BitVec.ofNat 13 (bNumber immLo immHi) := by
    rw [← bImm_toNat, BitVec.ofNat_toNat, BitVec.setWidth_eq]
  rw [answerBranch, lineRegRegNum_eq, bImm_toNat, bundle, bImmOf, hb]
  rfl

end

/-- The field of bits 20 to 31 needs no remainder: nothing stands above it. -/
theorem fieldAt_20_12_toNat (w : Word) : (fieldAt w 20 12).toNat = w.toNat / 2 ^ 20 := by
  have hw : w.toNat < 2 ^ 32 := w.isLt
  rw [fieldAt_toNat]
  omega

end Sys2Proof.Proofs

open Sys2Proof.Proofs

/-- Settles O41: the key `(0, 0)` of opcode 51 is the row of `add`, whatever the registers, and that row answers ADD. -/
theorem addWordsSelectAdd : Obligations.AddWordsSelectAdd := by
  intro s w ws hpend hopc hfunct3 hfunct7
  have hrow : decodeInstr w = .ok (.add (fieldAt w 7 5) (fieldAt w 15 5) (fieldAt w 20 5)) := by
    rw [decodeInstr_of_op_opcode hopc, hfunct3, hfunct7]
    rfl
  calc step s = answerOp .add 0 0 _ _ _ _ := step_of_pending hpend hrow
    _ = _ := answerOp_eq ..

/-- Settles O42: the key 0 of opcode 19 is the row of `addi`, whatever the registers and the immediate, which is printed as
the field above bit 19. -/
theorem addiWordsSelectAddi : Obligations.AddiWordsSelectAddi := by
  intro s w ws hpend hopc hfunct3
  have hrow : decodeInstr w = .ok (.addi (fieldAt w 7 5) (fieldAt w 15 5) (fieldAt w 20 12)) := by
    rw [decodeInstr_of_opImm_opcode hopc, hfunct3]
    rfl
  rw [← fieldAt_20_12_toNat]
  calc step s = answerOpImm .addi 0 _ _ _ _ := step_of_pending hpend hrow
    _ = _ := answerOpImm_eq ..

/-- Settles O43: the key 0 of opcode 99 is the row of `beq`, whatever the registers and the raw immediate fields, of which
`b_imm` is the arithmetic. -/
theorem beqWordsSelectBeq : Obligations.BeqWordsSelectBeq := by
  intro s w ws hpend hopc hfunct3
  have hrow : decodeInstr w = .ok (.beq (fieldAt w 7 5) (fieldAt w 15 5) (fieldAt w 20 5) (fieldAt w 25 7)) := by
    rw [decodeInstr_of_branch_opcode hopc, hfunct3]
    rfl
  calc step s = answerBranch .beq 0 _ _ _ _ _ := step_of_pending hpend hrow
    _ = _ := answerBranch_eq ..

end

