-- ==== Sys2Proof/Proofs/Templates.lean ====
section
/-! SUPPORT. The variant a word of the OP, OP-IMM and BRANCH classes decodes to, by the word's fields, and the template
that `render` gives such a variant where its operation is selected (44_render.md R180, R183, R184, R187). -/

open Sys2Proof Sys2Proof.Machine Sys2Proof.Certificates

namespace Sys2Proof.Proofs

/-! ## The variant of a class -/

section
variable {w : Word}

theorem decode_of_op_opcode (h : w.toNat % 128 = 51) :
    decode w =
      .ok (.R 51 (fieldAt w 7 5) (fieldAt w 12 3) (fieldAt w 15 5) (fieldAt w 20 5) (fieldAt w 25 7)) := by
  simp only [decode_of_opcode (f := .R) h rfl, construct, mkR, opcodeField_eq_ofNat h, extract_eq_fieldAt]
  rfl

theorem decode_of_opImm_opcode (h : w.toNat % 128 = 19) :
    decode w = .ok (.I 19 (fieldAt w 7 5) (fieldAt w 12 3) (fieldAt w 15 5) (fieldAt w 20 12)) := by
  simp only [decode_of_opcode (f := .I) h rfl, construct, mkI, opcodeField_eq_ofNat h, extract_eq_fieldAt]
  rfl

theorem decode_of_branch_opcode (h : w.toNat % 128 = 99) :
    decode w =
      .ok (.B 99 (fieldAt w 7 5) (fieldAt w 12 3) (fieldAt w 15 5) (fieldAt w 20 5) (fieldAt w 25 7)) := by
  simp only [decode_of_opcode (f := .B) h rfl, construct, mkB, opcodeField_eq_ofNat h, extract_eq_fieldAt]
  rfl

theorem bundle_of_decode {d : Decoded} {v : Instruction} (hd : frontEnd w = .ok d) (hv : decode w = .ok v) :
    d = bundle v (select v) (render v) := by
  obtain ⟨v', hv', rfl⟩ := frontEnd_ok_iff.mp hd
  obtain rfl : v' = v := Result.ok.inj (hv'.symm.trans hv)
  rfl

end

/-! ## The function codes that select -/

/-- The OP-IMM class has an arithmetic operation at every `funct3` (43_opselect.md R136 to R143). -/
theorem selectI_opImm_arithmetic (funct3 : Funct3) :
    selectI 19 funct3 ∉ [Op.none, .lb, .lh, .lw, .lbu, .lhu] := by
  revert funct3
  decide

/-- The BRANCH class leaves only `funct3` 2 and 3 without an operation (43_opselect.md R165). -/
theorem selectB_eq_none_iff (funct3 : Funct3) : selectB funct3 = .none ↔ funct3 = 2 ∨ funct3 = 3 := by
  revert funct3
  decide

/-! ## The template of a variant -/

section
variable {opcode : Opcode} {rd rs1 rs2 : RegIdx} {funct3 : Funct3}

theorem render_R_of_selected {funct7 : Funct7} (h : selectR funct3 funct7 ≠ .none) :
    render (.R opcode rd funct3 rs1 rs2 funct7) = mn (selectR funct3 funct7) ++ " " ++ threeRegs rd rs1 rs2 := by
  rw [← lineRegRegReg_eq, render]
  split
  case h_1 hnone => exact absurd hnone h
  case h_2 => rfl

/-- An I variant whose operation is neither absent nor a load has the arithmetic template. -/
theorem render_I_of_arithmetic {imm : BitVec 12}
    (h : selectI opcode funct3 ∉ [Op.none, .lb, .lh, .lw, .lbu, .lhu]) :
    render (.I opcode rd funct3 rs1 imm) =
      mn (selectI opcode funct3) ++ " " ++ twoRegsNumber rd rs1 imm.toNat := by
  simp only [List.mem_cons, List.not_mem_nil, or_false, not_or] at h
  obtain ⟨hnone, hlb, hlh, hlw, hlbu, hlhu⟩ := h
  rw [← lineRegRegNum_eq, render]
  split
  case h_1 habs => exact absurd habs hnone
  case h_2 =>
    -- The five load alternatives are ruled out by `hlb` to `hlhu`.
    simp only [select]

theorem render_B_of_selected {immLo : BitVec 5} {immHi : BitVec 7} (h : selectB funct3 ≠ .none) :
    render (.B opcode immLo funct3 rs1 rs2 immHi) =
      mn (selectB funct3) ++ " " ++ twoRegsNumber rs1 rs2 (bNumber immLo immHi) := by
  rw [← lineRegRegNum_eq, ← bImm_toNat, render]
  split
  case h_1 hnone => exact absurd hnone h
  case h_2 => rfl

end

end Sys2Proof.Proofs

open Sys2Proof.Proofs

/-- Settles O52: the opcode gives the variant of the word's fields and the selected operation its template; OP-IMM selects
one at every `funct3`, BRANCH at all but 2 and 3. -/
theorem linesFollowTheTemplatesOfRIAndB : Obligations.LinesFollowTheTemplatesOfRIAndB := by
  intro w d hd
  refine ⟨fun hop hsel => ?op, fun hopImm => ?opImm, fun hbranch h2 h3 => ?branch⟩
  case op =>
    obtain rfl := bundle_of_decode hd (decode_of_op_opcode hop)
    exact render_R_of_selected hsel
  case opImm =>
    obtain rfl := bundle_of_decode hd (decode_of_opImm_opcode hopImm)
    rw [← fieldAt_20_12_toNat]
    exact render_I_of_arithmetic (selectI_opImm_arithmetic _)
  case branch =>
    obtain rfl := bundle_of_decode hd (decode_of_branch_opcode hbranch)
    have hsel : selectB (fieldAt w 12 3) ≠ .none := fun h => ((selectB_eq_none_iff _).mp h).elim h2 h3
    exact render_B_of_selected hsel

end

