-- ==== Sys2Proof/Proofs/Rows.lean ====
section
/-! SUPPORT. The row of the opcode table as a function of the variant that `decode` builds (30_encoding.md R60): the row
decoder is `decode` followed by it, and it is inverse to `Instr.variant` on the well-formed instructions. -/

open Sys2Proof Sys2Proof.Machine Sys2Proof.Certificates

namespace Sys2Proof.Proofs

variable {w : Word} {f : Format} {v : Instruction} {i : Instr}

/-! ## Formats, opcodes and keys -/

/-- Tag and opcode agree (41_decode.md R107 (c)): what every variant that `decode` builds satisfies. -/
def FormatAgrees (v : Instruction) : Prop := formatOf v.opcode = some v.format

theorem formatAgrees_construct (h : formatOf (extract w 0 6) = some f) : FormatAgrees (construct f w) := by
  rw [FormatAgrees, construct_opcode, construct_format, h]

theorem formatAgrees_of_decode (h : decode w = .ok v) : FormatAgrees v := by
  obtain ⟨f, hf, rfl⟩ := decode_ok_iff.mp h
  exact formatAgrees_construct hf

theorem opcode_of_format_I {opcode : Opcode} (h : formatOf opcode = some .I) :
    opcode = 19 ∨ opcode = 3 ∨ opcode = 103 ∨ opcode = 115 := by
  revert opcode
  decide

theorem opcode_of_format_S {opcode : Opcode} (h : formatOf opcode = some .S) : opcode = 35 := by
  unfold formatOf at h
  split at h <;> simp_all

theorem opcode_of_format_B {opcode : Opcode} (h : formatOf opcode = some .B) : opcode = 99 := by
  unfold formatOf at h
  split at h <;> simp_all

theorem opcode_of_format_J {opcode : Opcode} (h : formatOf opcode = some .J) : opcode = 111 := by
  unfold formatOf at h
  split at h <;> simp_all

theorem selectR_eq_none_iff (funct3 : Funct3) (funct7 : Funct7) :
    selectR funct3 funct7 = .none ↔ (funct3, funct7) ∉ opKeys := by
  revert funct3 funct7
  decide

theorem selectI_eq_none_iff (opcode : Opcode) (funct3 : Funct3) :
    selectI opcode funct3 = .none ↔ ¬(opcode = 19 ∨ opcode = 3 ∧ funct3 ∈ loadKeys) := by
  revert opcode funct3
  decide

theorem selectI_load_eq_none_iff (funct3 : Funct3) : selectI 3 funct3 = .none ↔ funct3 ∉ loadKeys := by
  rw [selectI_eq_none_iff]
  simp

theorem selectS_eq_none_iff (funct3 : Funct3) : selectS funct3 = .none ↔ funct3 ∉ storeKeys := by
  revert funct3
  decide

theorem selectB_eq_none_iff_not_mem (funct3 : Funct3) : selectB funct3 = .none ↔ funct3 ∉ branchKeys := by
  revert funct3
  decide

/-! ## The row of a variant -/

/-- The row a variant stands for: its opcode gives the class, its function codes the row of the class. -/
def rowOf : Instruction → Instr
  | .R _ rd funct3 rs1 rs2 funct7 => rowOp rd funct3 rs1 rs2 funct7
  | .I opcode rd funct3 rs1 imm =>
    if opcode = 19 then rowOpImm rd funct3 rs1 imm
    else if opcode = 3 then rowLoad rd funct3 rs1 imm
    else if opcode = 103 then .noneJalr rd funct3 rs1 imm
    else .noneSystem rd funct3 rs1 imm
  | .S _ immLo funct3 rs1 rs2 immHi => rowStore immLo funct3 rs1 rs2 immHi
  | .B _ immLo funct3 rs1 rs2 immHi => rowBranch immLo funct3 rs1 rs2 immHi
  | .U _ rd imm => .lui rd imm
  | .J _ rd imm => .jal rd imm

/-- The nine arms of `decodeInstr` are those of `formatOf`. -/
theorem decodeInstr_eq_elim_formatOf (w : Word) :
    decodeInstr w =
      (formatOf (extract w 0 6)).elim (.err (.unknownOpcode (extract w 0 6)))
        (fun f => .ok (rowOf (construct f w))) := by
  unfold decodeInstr formatOf
  split <;> simp [construct, rowOf, mkR, mkI, mkS, mkB, mkU, mkJ, *]

theorem decodeInstr_of_decode (h : decode w = .ok v) : decodeInstr w = .ok (rowOf v) := by
  obtain ⟨f, hf, rfl⟩ := decode_ok_iff.mp h
  rw [decodeInstr_eq_elim_formatOf, hf]
  rfl

theorem decodeInstr_of_decode_err {e : DecodeError} (h : decode w = .err e) : decodeInstr w = .err e := by
  cases hf : formatOf (extract w 0 6) with
  | none =>
    obtain rfl := Result.err.inj ((decode_of_no_format hf).symm.trans h)
    rw [decodeInstr_eq_elim_formatOf, hf]
    rfl
  | some f => simp [decode_of_format hf] at h

theorem rowOp_variant (rd : RegIdx) (funct3 : Funct3) (rs1 rs2 : RegIdx) (funct7 : Funct7) :
    (rowOp rd funct3 rs1 rs2 funct7).variant = .R 51 rd funct3 rs1 rs2 funct7 := by
  unfold rowOp
  split
  · split <;> rfl
  · split <;> rfl
  · rfl

theorem rowOpImm_variant (rd : RegIdx) (funct3 : Funct3) (rs1 : RegIdx) (imm : BitVec 12) :
    (rowOpImm rd funct3 rs1 imm).variant = .I 19 rd funct3 rs1 imm := by
  unfold rowOpImm
  split <;> rfl

theorem rowLoad_variant (rd : RegIdx) (funct3 : Funct3) (rs1 : RegIdx) (imm : BitVec 12) :
    (rowLoad rd funct3 rs1 imm).variant = .I 3 rd funct3 rs1 imm := by
  unfold rowLoad
  split <;> rfl

theorem rowStore_variant (immLo : BitVec 5) (funct3 : Funct3) (rs1 rs2 : RegIdx) (immHi : SImmHi) :
    (rowStore immLo funct3 rs1 rs2 immHi).variant = .S 35 immLo funct3 rs1 rs2 immHi := by
  unfold rowStore
  split <;> rfl

theorem rowBranch_variant (immLo : BitVec 5) (funct3 : Funct3) (rs1 rs2 : RegIdx) (immHi : BitVec 7) :
    (rowBranch immLo funct3 rs1 rs2 immHi).variant = .B 99 immLo funct3 rs1 rs2 immHi := by
  unfold rowBranch
  split <;> rfl

/-- The row of a variant whose opcode has its format stands for that variant. -/
theorem variant_rowOf (h : FormatAgrees v) : (rowOf v).variant = v := by
  cases v with
  | R opcode =>
    obtain rfl : opcode = 51 := opcode_of_format_R h
    exact rowOp_variant ..
  | I opcode rd funct3 rs1 imm =>
    obtain rfl | rfl | rfl | rfl : opcode = 19 ∨ opcode = 3 ∨ opcode = 103 ∨ opcode = 115 := opcode_of_format_I h
    · exact rowOpImm_variant ..
    · exact rowLoad_variant ..
    · rfl
    · rfl
  | S opcode =>
    obtain rfl : opcode = 35 := opcode_of_format_S h
    exact rowStore_variant ..
  | B opcode =>
    obtain rfl : opcode = 99 := opcode_of_format_B h
    exact rowBranch_variant ..
  | U opcode =>
    obtain rfl : opcode = 55 := opcode_of_format_U h
    rfl
  | J opcode =>
    obtain rfl : opcode = 111 := opcode_of_format_J h
    rfl

/-! ## Fallback rows -/

/-- The six rows without a mnemonic of their own (30_encoding.md R60). -/
def isFallback : Instr → Bool
  | .noneOp .. | .noneLoad .. | .noneJalr .. | .noneSystem .. | .noneStore .. | .noneBranch .. => true
  | _ => false

theorem isFallback_iff_mem_fallbackRows : isFallback i = true ↔ i.mnemonic ∈ fallbackRows.map (·.mnemonic) := by
  cases i <;> simp only [isFallback, Instr.mnemonic] <;> decide

theorem isFallback_eq_false_iff_mem_mnemonicRows :
    isFallback i = false ↔ i.mnemonic ∈ mnemonicRows.map (·.mnemonic) := by
  cases i <;> simp only [isFallback, Instr.mnemonic] <;> decide

/-- A fallback row is well-formed exactly where its function codes select nothing (43_opselect.md R160 to R165). -/
theorem wellFormed_iff_of_fallback (h : isFallback i = true) : i.wellFormed = true ↔ select i.variant = .none := by
  cases i with
  | noneOp rd funct3 rs1 rs2 funct7 => simp [Instr.wellFormed, Instr.variant, select, selectR_eq_none_iff]
  | noneLoad rd funct3 =>
    rw [show select (Instr.noneLoad ..).variant = selectI 3 funct3 from rfl, selectI_load_eq_none_iff]
    simp [Instr.wellFormed]
  | noneJalr rd funct3 => exact iff_of_true rfl (selectI_eq_none (by decide) (by decide) funct3)
  | noneSystem rd funct3 => exact iff_of_true rfl (selectI_eq_none (by decide) (by decide) funct3)
  | noneStore immLo funct3 => simp [Instr.wellFormed, Instr.variant, select, selectS_eq_none_iff]
  | noneBranch immLo funct3 => simp [Instr.wellFormed, Instr.variant, select, selectB_eq_none_iff_not_mem]
  | _ => cases h

/-- A mnemonic row's own function codes select its mnemonic. -/
theorem mn_select_of_not_fallback (h : isFallback i = false) : mn (select i.variant) = i.mnemonic := by
  cases i with
  | noneOp | noneLoad | noneJalr | noneSystem | noneStore | noneBranch => cases h
  | _ => rfl


/-! ## The row of a well-formed instruction's variant -/

section
variable {rd rs1 rs2 : RegIdx} {funct3 : Funct3} {funct7 : Funct7} {imm : BitVec 12} {immLo : BitVec 5}

theorem rowOp_of_not_mem (h : (funct3, funct7) ∉ opKeys) :
    rowOp rd funct3 rs1 rs2 funct7 = .noneOp rd funct3 rs1 rs2 funct7 := by
  unfold rowOp
  split
  · split <;> exact absurd (by decide) h
  · split
    · exact absurd (by decide) h
    · exact absurd (by decide) h
    · rfl
  · rfl

theorem rowLoad_of_not_mem (h : funct3 ∉ loadKeys) : rowLoad rd funct3 rs1 imm = .noneLoad rd funct3 rs1 imm := by
  unfold rowLoad
  split <;> simp_all [loadKeys]

theorem rowStore_of_not_mem {immHi : SImmHi} (h : funct3 ∉ storeKeys) :
    rowStore immLo funct3 rs1 rs2 immHi = .noneStore immLo funct3 rs1 rs2 immHi := by
  unfold rowStore
  split <;> simp_all [storeKeys]

theorem rowBranch_of_not_mem {immHi : BitVec 7} (h : funct3 ∉ branchKeys) :
    rowBranch immLo funct3 rs1 rs2 immHi = .noneBranch immLo funct3 rs1 rs2 immHi := by
  unfold rowBranch
  split <;> simp_all [branchKeys]

theorem rowOp_wellFormed : (rowOp rd funct3 rs1 rs2 funct7).wellFormed = true := by
  by_cases h : (funct3, funct7) ∈ opKeys
  · unfold rowOp
    split
    · split <;> rfl
    · split <;> simp_all [opKeys, Instr.wellFormed]
    · simp_all [opKeys, Instr.wellFormed]
  · simp [rowOp_of_not_mem h, Instr.wellFormed, h]

theorem rowOpImm_wellFormed : (rowOpImm rd funct3 rs1 imm).wellFormed = true := by
  unfold rowOpImm
  split <;> rfl

theorem rowLoad_wellFormed : (rowLoad rd funct3 rs1 imm).wellFormed = true := by
  unfold rowLoad
  split <;> simp_all [Instr.wellFormed, loadKeys]

theorem rowStore_wellFormed {immHi : SImmHi} : (rowStore immLo funct3 rs1 rs2 immHi).wellFormed = true := by
  unfold rowStore
  split <;> simp_all [Instr.wellFormed, storeKeys]

theorem rowBranch_wellFormed {immHi : BitVec 7} : (rowBranch immLo funct3 rs1 rs2 immHi).wellFormed = true := by
  unfold rowBranch
  split <;> simp_all [Instr.wellFormed, branchKeys]

end

theorem rowOf_wellFormed (v : Instruction) : (rowOf v).wellFormed = true := by
  cases v with
  | R => exact rowOp_wellFormed
  | I =>
    simp only [rowOf]
    split_ifs
    · exact rowOpImm_wellFormed
    · exact rowLoad_wellFormed
    · rfl
    · rfl
  | S => exact rowStore_wellFormed
  | B => exact rowBranch_wellFormed
  | U => rfl
  | J => rfl

theorem formatAgrees_variant (i : Instr) : FormatAgrees i.variant := by
  cases i <;> rfl

/-- A well-formed instruction is the row of its own variant: its key is its row's, or no mnemonic's. -/
theorem rowOf_variant (h : i.wellFormed = true) : rowOf i.variant = i := by
  cases i with
  | noneOp => exact rowOp_of_not_mem (by simpa [Instr.wellFormed] using h)
  | noneLoad => exact rowLoad_of_not_mem (by simpa [Instr.wellFormed] using h)
  | noneStore => exact rowStore_of_not_mem (by simpa [Instr.wellFormed] using h)
  | noneBranch => exact rowBranch_of_not_mem (by simpa [Instr.wellFormed] using h)
  | _ => rfl

/-- `decodeInstr` is `decode` and the row of its variant, for every word that decodes. -/
theorem decodeInstr_ok_iff : decodeInstr w = .ok i ↔ decode w = .ok i.variant ∧ i.wellFormed = true := by
  constructor
  · intro h
    cases hv : decode w with
    | err e => simp [decodeInstr_of_decode_err hv] at h
    | ok v =>
      obtain rfl : rowOf v = i := Result.ok.inj ((decodeInstr_of_decode hv).symm.trans h)
      exact ⟨by rw [variant_rowOf (formatAgrees_of_decode hv)], rowOf_wellFormed v⟩
  · rintro ⟨hv, hwf⟩
    rw [decodeInstr_of_decode hv, rowOf_variant hwf]

theorem decodeInstr_err_iff {e : DecodeError} : decodeInstr w = .err e ↔ decode w = .err e := by
  refine ⟨fun h => ?_, decodeInstr_of_decode_err⟩
  cases hv : decode w with
  | ok v => simp [decodeInstr_of_decode hv] at h
  | err e' => rw [Result.err.inj ((decodeInstr_of_decode_err hv).symm.trans h)]

end Sys2Proof.Proofs

open Sys2Proof.Proofs

/-- Settles O27: where `decode` gives a variant, `decodeInstr` gives its row, which stands for it; they fail alike. -/
theorem rowDecoderAgreesWithTheClassifier : Obligations.RowDecoderAgreesWithTheClassifier := by
  intro w
  cases h : decodeInstr w with
  | ok i => exact (decodeInstr_ok_iff.mp h).1
  | err e => exact decodeInstr_err_iff.mp h

/-- Settles O28: a decoded instruction is the row of a variant, and such a row is well-formed. -/
theorem decodedInstructionsAreWellFormed : Obligations.DecodedInstructionsAreWellFormed :=
  fun _ _ h => (decodeInstr_ok_iff.mp h).2

/-- Settles O39: each key space is finite and `select` is evaluated on all of it. -/
theorem selectingKeysAreTheListedOnes : Obligations.SelectingKeysAreTheListedOnes :=
  ⟨fun _ _ => (not_congr (selectR_eq_none_iff ..)).trans not_not,
    fun _ _ => (not_congr (selectI_eq_none_iff ..)).trans not_not,
    fun _ => (not_congr (selectS_eq_none_iff _)).trans not_not,
    fun _ => (not_congr (selectB_eq_none_iff_not_mem _)).trans not_not, by decide⟩

end

