-- ==== Sys2Proof/Proofs/Packing.lean ====
section
/-! SUPPORT. The packed words by value (41_decode.md R107 (e)): a word is the sum of its shifted fields, so a field of a
packed word is the field that was packed, and packing a word's own fields gives the word back, but for bit 31 of a
store. -/

open Sys2Proof Sys2Proof.Machine Sys2Proof.Certificates

namespace Sys2Proof.Proofs

variable {u w : Word} {f : Format} {v : Instruction}

/-! ## The value of a packed word -/

/-- A word whose value is `value`, with no bit set from `width` up: what is packed so far. -/
structure Packed (w : Word) (width value : Nat) : Prop where
  toNat_eq : w.toNat = value
  bound : value < 2 ^ width

theorem Packed.place {n : Nat} (field : BitVec n) (hn : n ≤ 32) : Packed (place field 0) n field.toNat where
  toNat_eq := by rw [Sys2Proof.place, BitVec.shiftLeft_zero, BitVec.toNat_setWidth_of_le hn]
  bound := field.isLt

/-- A field put directly above the packed bits adds its shifted value. -/
theorem Packed.or_place {width value n : Nat} (h : Packed w width value) (field : BitVec n) (hn : width + n ≤ 32) :
    Packed (w ||| Sys2Proof.place field width) (width + n) (value + field.toNat * 2 ^ width) := by
  have hsum : value + field.toNat * 2 ^ width < 2 ^ (width + n) :=
    calc value + field.toNat * 2 ^ width < (field.toNat + 1) * 2 ^ width := by
          rw [Nat.succ_mul, Nat.add_comm]
          exact Nat.add_lt_add_left h.bound _
      _ ≤ 2 ^ n * 2 ^ width := Nat.mul_le_mul_right _ field.isLt
      _ = 2 ^ (width + n) := by rw [Nat.add_comm, Nat.pow_add]
  have hword : 2 ^ (width + n) ≤ 2 ^ 32 := Nat.pow_le_pow_right (by decide) hn
  have hplace : (Sys2Proof.place field width).toNat = field.toNat <<< width := by
    rw [Sys2Proof.place, BitVec.toNat_shiftLeft, BitVec.toNat_setWidth_of_le (by omega), Nat.shiftLeft_eq,
      Nat.mod_eq_of_lt (by omega)]
  refine ⟨?_, hsum⟩
  rw [BitVec.toNat_or, hplace, h.toNat_eq, Nat.or_comm, ← Nat.shiftLeft_add_eq_or_of_lt h.bound, Nat.shiftLeft_eq,
    Nat.add_comm]

section
variable (opcode : Opcode) (rd rs1 rs2 : RegIdx) (funct3 : Funct3) (funct7 : Funct7) (immLo : BitVec 5)

theorem packR_toNat :
    (packR opcode rd funct3 rs1 rs2 funct7).toNat = opcode.toNat + rd.toNat * 2 ^ 7 + funct3.toNat * 2 ^ 12 +
      rs1.toNat * 2 ^ 15 + rs2.toNat * 2 ^ 20 + funct7.toNat * 2 ^ 25 :=
  ((((((Packed.place opcode (by decide)).or_place rd (by decide)).or_place funct3 (by decide)).or_place rs1
    (by decide)).or_place rs2 (by decide)).or_place funct7 (by decide)).toNat_eq

theorem packI_toNat (imm : BitVec 12) :
    (packI opcode rd funct3 rs1 imm).toNat = opcode.toNat + rd.toNat * 2 ^ 7 + funct3.toNat * 2 ^ 12 +
      rs1.toNat * 2 ^ 15 + imm.toNat * 2 ^ 20 :=
  (((((Packed.place opcode (by decide)).or_place rd (by decide)).or_place funct3 (by decide)).or_place rs1
    (by decide)).or_place imm (by decide)).toNat_eq

theorem packS_toNat (immHi : BitVec 6) :
    (packS opcode immLo funct3 rs1 rs2 immHi).toNat = opcode.toNat + immLo.toNat * 2 ^ 7 + funct3.toNat * 2 ^ 12 +
      rs1.toNat * 2 ^ 15 + rs2.toNat * 2 ^ 20 + immHi.toNat * 2 ^ 25 :=
  ((((((Packed.place opcode (by decide)).or_place immLo (by decide)).or_place funct3 (by decide)).or_place rs1
    (by decide)).or_place rs2 (by decide)).or_place immHi (by decide)).toNat_eq

theorem packB_toNat (immHi : BitVec 7) :
    (packB opcode immLo funct3 rs1 rs2 immHi).toNat = opcode.toNat + immLo.toNat * 2 ^ 7 + funct3.toNat * 2 ^ 12 +
      rs1.toNat * 2 ^ 15 + rs2.toNat * 2 ^ 20 + immHi.toNat * 2 ^ 25 :=
  packR_toNat opcode immLo rs1 rs2 funct3 immHi

theorem packU_toNat (imm : BitVec 20) :
    (packU opcode rd imm).toNat = opcode.toNat + rd.toNat * 2 ^ 7 + imm.toNat * 2 ^ 12 :=
  (((Packed.place opcode (by decide)).or_place rd (by decide)).or_place imm (by decide)).toNat_eq

/-! ## The fields of a packed word -/

/-- `S_IMM_HI_BITS` is 6. -/
theorem sImmHiOf_eq_fieldAt (w : Word) : sImmHiOf w = fieldAt w 25 6 := extract_eq_fieldAt w 25 30 _

theorem mkR_packR : mkR (packR opcode rd funct3 rs1 rs2 funct7) = .R opcode rd funct3 rs1 rs2 funct7 := by
  simp only [mkR, extract_eq_fieldAt, Instruction.R.injEq, ← BitVec.toNat_inj, fieldAt_toNat, packR_toNat]
  omega

theorem mkI_packI (imm : BitVec 12) : mkI (packI opcode rd funct3 rs1 imm) = .I opcode rd funct3 rs1 imm := by
  simp only [mkI, extract_eq_fieldAt, Instruction.I.injEq, ← BitVec.toNat_inj, fieldAt_toNat, packI_toNat]
  omega

theorem mkS_packS (immHi : BitVec 6) :
    mkS (packS opcode immLo funct3 rs1 rs2 immHi) = .S opcode immLo funct3 rs1 rs2 immHi := by
  simp only [mkS, sImmHiOf_eq_fieldAt, extract_eq_fieldAt, Instruction.S.injEq, ← BitVec.toNat_inj, fieldAt_toNat,
    packS_toNat]
  omega

theorem mkB_packB (immHi : BitVec 7) :
    mkB (packB opcode immLo funct3 rs1 rs2 immHi) = .B opcode immLo funct3 rs1 rs2 immHi := by
  simp only [mkB, extract_eq_fieldAt, Instruction.B.injEq, ← BitVec.toNat_inj, fieldAt_toNat, packB_toNat]
  omega

theorem mkU_packU (imm : BitVec 20) : mkU (packU opcode rd imm) = .U opcode rd imm := by
  simp only [mkU, extract_eq_fieldAt, Instruction.U.injEq, ← BitVec.toNat_inj, fieldAt_toNat, packU_toNat]
  omega

theorem mkJ_packU (imm : BitVec 20) : mkJ (packU opcode rd imm) = .J opcode rd imm := by
  simp only [mkJ, extract_eq_fieldAt, Instruction.J.injEq, ← BitVec.toNat_inj, fieldAt_toNat, packU_toNat]
  omega

end

/-- The constructor of a variant's format reads the variant back from its word. -/
theorem construct_encodeVariant (v : Instruction) : construct v.format (encodeVariant v) = v := by
  cases v with
  | R => exact mkR_packR ..
  | I => exact mkI_packI ..
  | S => exact mkS_packS ..
  | B => exact mkB_packB ..
  | U => exact mkU_packU ..
  | J => exact mkJ_packU ..

theorem opcodeField_encodeVariant (v : Instruction) : extract (encodeVariant v) 0 6 = v.opcode := by
  rw [← construct_opcode (f := v.format), construct_encodeVariant]

theorem decode_encodeVariant (h : FormatAgrees v) : decode (encodeVariant v) = .ok v := by
  have hformat : formatOf (extract (encodeVariant v) 0 6) = some v.format := opcodeField_encodeVariant v ▸ h
  rw [decode_of_format hformat, construct_encodeVariant]

/-! ## The word of a constructed variant -/

/-- What the encoder keeps of a word: all of it, but for format S, where bit 31 is in no field. -/
def keptBits (f : Format) (w : Word) : Word := if f = .S then w &&& 0x7FFFFFFF else w

theorem and_low31_toNat (w : Word) : (w &&& 0x7FFFFFFF).toNat = w.toNat % 2 ^ 31 := by
  rw [BitVec.toNat_and]
  exact Nat.and_two_pow_sub_one_eq_mod w.toNat 31

theorem encodeVariant_construct : encodeVariant (construct f w) = keptBits f w := by
  have hw : w.toNat < 2 ^ 32 := w.isLt
  apply BitVec.eq_of_toNat_eq
  cases f <;>
    simp only [construct, encodeVariant, mkR, mkI, mkS, mkB, mkU, mkJ, packR_toNat, packI_toNat, packS_toNat,
      packB_toNat, packU_toNat, sImmHiOf_eq_fieldAt, extract_eq_fieldAt, fieldAt_toNat, keptBits, reduceCtorEq,
      if_false, if_true, and_low31_toNat] <;>
    omega

theorem encodeVariant_of_decode (h : decode w = .ok v) : encodeVariant v = keptBits v.format w := by
  obtain ⟨f, -, rfl⟩ := decode_ok_iff.mp h
  rw [encodeVariant_construct, construct_format]

/-- A format that one opcode value alone has tells that value, and the value tells the format. -/
theorem format_eq_iff_of_decode {n : Fin 128} (h : decode w = .ok v)
    (honly : ∀ opcode, formatOf opcode = some f ↔ opcode = BitVec.ofNat 7 n) :
    v.format = f ↔ w.toNat % 128 = n := by
  have hformat : formatOf (extract w 0 6) = some v.format := by
    obtain ⟨g, hg, rfl⟩ := decode_ok_iff.mp h
    rw [hg, construct_format]
  rw [← Option.some_inj, ← hformat, honly, ← BitVec.toNat_inj, opcodeField_toNat, BitVec.toNat_ofNat,
    Nat.mod_eq_of_lt (a := ↑n) n.isLt]

theorem format_eq_S_iff_of_decode (h : decode w = .ok v) : v.format = .S ↔ w.toNat % 128 = 35 :=
  format_eq_iff_of_decode (n := 35) h (by decide)

/-- A difference above bit 30 is none, or bit 31. -/
theorem eq_or_xor_eq_of_and_low31 (h : u &&& 0x7FFFFFFF = w &&& 0x7FFFFFFF) : u = w ∨ u ^^^ w = 0x80000000 := by
  have hlow : u.toNat % 2 ^ 31 = w.toNat % 2 ^ 31 := by rw [← and_low31_toNat, ← and_low31_toNat, h]
  have hxor : (u ^^^ w).toNat % 2 ^ 31 = 0 := by rw [BitVec.toNat_xor, Nat.xor_mod_two_pow, hlow, Nat.xor_self]
  have hlt : (u ^^^ w).toNat < 2 ^ 32 := (u ^^^ w).isLt
  obtain h0 | h31 : (u ^^^ w).toNat = 0 ∨ (u ^^^ w).toNat = 2 ^ 31 := by omega
  · exact .inl (BitVec.xor_eq_zero_iff.mp (BitVec.eq_of_toNat_eq h0))
  · exact .inr (BitVec.eq_of_toNat_eq h31)

/-! ## Bit 31 of a store -/

theorem extract_flip31 {lo hi : Nat} (valid : lo ≤ hi ∧ hi ≤ 31) (h : hi ≤ 30) :
    extract (w ^^^ 0x80000000) lo hi valid = extract w lo hi valid := by
  have hbit : (0x80000000 : Word) = BitVec.twoPow 32 31 := by decide
  apply BitVec.eq_of_getLsbD_eq
  intro k hk
  have hne : ¬31 = lo + k := by omega
  rw [extract_getLsbD _ valid (by omega), extract_getLsbD _ valid (by omega), BitVec.getLsbD_xor, hbit,
    BitVec.getLsbD_twoPow, decide_eq_false hne, Bool.and_false, Bool.xor_false]

theorem mkS_flip31 (w : Word) : mkS (w ^^^ 0x80000000) = mkS w := by
  simp (disch := decide) only [mkS, sImmHiOf, extract_flip31]

end Sys2Proof.Proofs

open Sys2Proof.Proofs

/-- Settles O24: the word of a row's variant decodes to that variant, whose row is the instruction again. -/
theorem decodeOfEncodeIsTheInstruction : Obligations.DecodeOfEncodeIsTheInstruction :=
  fun i hwf => decodeInstr_ok_iff.mpr ⟨decode_encodeVariant (formatAgrees_variant i), hwf⟩

/-- Settles O22: the fields are the arithmetic ones, and none of them holds bit 31. -/
theorem storeConstructorDoesNotSeeBit31 : Obligations.StoreConstructorDoesNotSeeBit31 := by
  intro w
  refine ⟨?_, (mkS_flip31 w).symm⟩
  simp only [mkS, sImmHiOf_eq_fieldAt, extract_eq_fieldAt]

/-- Settles O25: the encoder puts the fields of the decoded variant back, which leave out bit 31 in format S alone, and
format S is that of opcode 35 alone. -/
theorem encodeOfDecodeIsTheWord : Obligations.EncodeOfDecodeIsTheWord := by
  intro w i h
  obtain ⟨hdec, -⟩ := decodeInstr_ok_iff.mp h
  rw [encode, encodeVariant_of_decode hdec, keptBits]
  exact if_congr (format_eq_S_iff_of_decode hdec) rfl rfl

/-- Settles O26: words of one variant agree on the bits the encoder keeps, and the S constructor does not see the one it
drops. -/
theorem decodeIdentifiesOnlyStoresDifferingInBit31 : Obligations.DecodeIdentifiesOnlyStoresDifferingInBit31 := by
  refine ⟨fun u w v hu hw => ?_, fun w hstore => ?_⟩
  · have hkept : keptBits v.format u = keptBits v.format w := by
      rw [← encodeVariant_of_decode hu, encodeVariant_of_decode hw]
    by_cases hS : v.format = .S
    · rw [keptBits, keptBits, if_pos hS, if_pos hS] at hkept
      exact (eq_or_xor_eq_of_and_low31 hkept).imp_right fun hxor => ⟨(format_eq_S_iff_of_decode hu).mp hS, hxor⟩
    · rw [keptBits, keptBits, if_neg hS, if_neg hS] at hkept
      exact .inl hkept
  · have hflip : (w ^^^ 0x80000000).toNat % 128 = 35 := by
      rw [← hstore, ← opcodeField_eq_iff, extract_flip31 _ (by decide)]
    rw [decode_of_opcode (f := .S) hflip rfl, decode_of_opcode (f := .S) hstore rfl]
    exact congrArg _ (mkS_flip31 w)

end

