-- ==== Sys2Proof/Proofs/FieldsAndBytes.lean ====
section
/-! SUPPORT. Splitting, nesting and agreement of extracted fields (40_extract.md R82), and words as four bytes in
little-endian order (20_memory.md R31). -/

open Sys2Proof Sys2Proof.Machine Sys2Proof.Certificates

namespace Sys2Proof.Proofs

variable {u w : Word} {lo hi : Nat}

/-! ## Laws of extraction -/

theorem extract_toNat (w : Word) (valid : lo ≤ hi ∧ hi ≤ 31) :
    (extract w lo hi valid).toNat = w.toNat / 2 ^ lo % 2 ^ (hi - lo + 1) := by
  rw [extract_eq_fieldAt, fieldAt_toNat]

theorem extract_all (w : Word) : extract w 0 31 = w := by
  apply BitVec.eq_of_toNat_eq
  rw [extract_toNat, Nat.pow_zero, Nat.div_one]
  exact Nat.mod_eq_of_lt w.isLt

/-- A field is its low part plus its shifted high part. -/
theorem extract_split {m : Nat} (h1 : lo ≤ m ∧ m ≤ 31) (h2 : m + 1 ≤ hi ∧ hi ≤ 31) (h3 : lo ≤ hi ∧ hi ≤ 31) :
    (extract w lo hi h3).toNat =
      (extract w lo m h1).toNat + 2 ^ (m - lo + 1) * (extract w (m + 1) hi h2).toNat := by
  have hwidth : hi - lo + 1 = (m - lo + 1) + (hi - (m + 1) + 1) := by omega
  have hlow : lo + (m - lo + 1) = m + 1 := by omega
  rw [extract_toNat, extract_toNat, extract_toNat, hwidth, Nat.pow_add, Nat.mod_mul, Nat.div_div_eq_div_mul,
    ← Nat.pow_add, hlow]

/-- A field of a field is the field at the sum of the positions. -/
theorem extract_extract {a b : Nat} (h : lo ≤ hi ∧ hi ≤ 31) (hab : a ≤ b ∧ b ≤ 31) (hb : lo + b ≤ hi)
    (h' : lo + a ≤ lo + b ∧ lo + b ≤ 31) :
    (extract (asWord (extract w lo hi h)) a b hab).toNat = (extract w (lo + a) (lo + b) h').toNat := by
  have hwidth : lo + b - (lo + a) = b - a := by omega
  have hnested : hi - lo + 1 = a + (b - a + 1) + (hi - lo - b) := by omega
  have hfits : hi - lo + 1 ≤ 32 := by omega
  rw [extract_asWord_toNat _ _ hfits, extract_toNat, extract_toNat, hwidth, hnested, Nat.pow_add 2 (a + _),
    Nat.pow_add 2 a, Nat.mul_assoc, Nat.mod_mul_right_div_self, Nat.mod_mul_right_mod, Nat.div_div_eq_div_mul, ← Nat.pow_add]

/-- Two extractions of a range agree exactly where the words do. -/
theorem extract_eq_iff_getLsbD (h : lo ≤ hi ∧ hi ≤ 31) :
    extract u lo hi h = extract w lo hi h ↔ ∀ k, lo ≤ k → k ≤ hi → u.getLsbD k = w.getLsbD k := by
  constructor
  · intro heq k hlo hhi
    obtain ⟨j, rfl⟩ := Nat.exists_eq_add_of_le hlo
    have hj : j ≤ hi - lo := by omega
    rw [← extract_getLsbD u h hj, heq, extract_getLsbD w h hj]
  · intro hbits
    apply BitVec.eq_of_getLsbD_eq
    intro j hj
    have hj' : j ≤ hi - lo := by omega
    rw [extract_getLsbD u h hj', extract_getLsbD w h hj']
    exact hbits _ (by omega) (by omega)

/-! ## Words and bytes -/

theorem wordOfBytes_toNat (b0 b1 b2 b3 : Byte) :
    (wordOfBytes b0 b1 b2 b3).toNat = b0.toNat + 256 * b1.toNat + 65536 * b2.toNat + 16777216 * b3.toNat := by
  simp only [wordOfBytes, BitVec.toNat_cast, toNat_append_eq_add]
  omega

theorem wordOfBytes_bytesOfWord (w : Word) :
    wordOfBytes (extract w 0 7) (extract w 8 15) (extract w 16 23) (extract w 24 31) = w := by
  have hw : w.toNat < 2 ^ 32 := w.isLt
  apply BitVec.eq_of_toNat_eq
  simp only [wordOfBytes_toNat, extract_toNat]
  omega

theorem wordsOfBytes_bytesOfWord_append (w : Word) (bs : List Byte) :
    wordsOfBytes (bytesOfWord w ++ bs) = w :: wordsOfBytes bs :=
  congrArg (· :: wordsOfBytes bs) (wordOfBytes_bytesOfWord w)

theorem wordsOfBytes_flatMap_bytesOfWord (ws : List Word) : wordsOfBytes (ws.flatMap bytesOfWord) = ws := by
  induction ws with
  | nil => rfl
  | cons w ws ih => rw [List.flatMap_cons, wordsOfBytes_bytesOfWord_append, ih]

/-- The first four bytes are decoded as the word they make. -/
theorem decodeBytes_ok_iff {b0 b1 b2 b3 : Byte} {rest rest' : List Byte} {i : Instr} :
    decodeBytes (b0 :: b1 :: b2 :: b3 :: rest) = .ok (i, rest') ↔
      decodeInstr (wordOfBytes b0 b1 b2 b3) = .ok i ∧ rest = rest' := by
  rw [decodeBytes]
  cases decodeInstr (wordOfBytes b0 b1 b2 b3) with
  | ok j => simp
  | err e => cases e; simp

/-- The 32 table bits of a number are supplied as the bytes of one word. -/
theorem tableBytes_32 (n : Nat) : tableBytes 32 n = bytesOfWord (BitVec.ofNat 32 n) := by
  have hword : BitVec.ofNat 32 (n % 2 ^ 32) = BitVec.ofNat 32 n := BitVec.eq_of_toNat_eq (Nat.mod_mod _ _)
  rw [tableBytes, hword]

theorem decodeInstr_of_decodeTableWord {n : Nat} {i : Instr} (h : decodeTableWord 32 n = some i) :
    decodeInstr (BitVec.ofNat 32 n) = .ok i := by
  rw [decodeTableWord, tableBytes_32] at h
  split at h
  case h_1 j rest hbytes =>
    obtain rfl := Option.some.inj h
    rw [← (decodeBytes_ok_iff.mp hbytes).1, wordOfBytes_bytesOfWord]
  case h_2 => cases h

end Sys2Proof.Proofs

open Sys2Proof.Proofs

/-- Settles O17: each law is one of division and remainder by powers of two, or of single bits. -/
theorem extractLaws : Obligations.ExtractLaws :=
  ⟨extract_all, fun _ _ _ _ => BitVec.isLt _, fun _ _ _ _ => extract_split, fun _ _ _ _ _ => extract_extract,
    fun _ _ _ _ => extract_eq_iff_getLsbD⟩

/-- Settles O19: the four bytes of a word make it again, and so one word after the other. -/
theorem bytesAreAssembledLittleEndian : Obligations.BytesAreAssembledLittleEndian := by
  refine ⟨wordOfBytes_toNat, fun s ws => ?_⟩
  rw [State.supplyBytes, wordsOfBytes_flatMap_bytesOfWord]

end

