-- ==== Sys2Proof/Proofs/Stepping.lean ====
section
/-! SUPPORT. What one step answers (10_state.md R10, R11, R14, R24): the bundle of a well-formed instruction's own
variant, hence the block's function of the word taken; and what follows for states and for sequences of words. -/

open Sys2Proof Sys2Proof.Machine Sys2Proof.Certificates

namespace Sys2Proof.Proofs

variable {w : Word} {v : Instruction} {i : Instr} {s : State}

/-! ## What an instruction answers -/

/-- Every instruction delivers a bundle of its own variant, and so changes the output alone. -/
theorem exec_eq_deliver (i : Instr) (s : State) :
    ∃ op text, exec i s = .next (s.deliver (bundle i.variant op text)) := by
  cases i <;> exact ⟨_, _, rfl⟩

theorem render_of_select_eq_none (h : select v = .none) : render v = dump v := by
  rw [render, h]

/-- A fallback row answers the dump, which is what the function chain gives where nothing is selected. -/
theorem exec_of_fallback (h : isFallback i = true) (hnone : select i.variant = .none) (s : State) :
    exec i s = .next (s.deliver (bundle i.variant (select i.variant) (render i.variant))) := by
  rw [render_of_select_eq_none hnone, hnone]
  cases i with
  | noneOp | noneLoad | noneJalr | noneSystem | noneStore | noneBranch => rfl
  | _ => cases h

/-- A mnemonic row answers its operation and its template, which are the ones its own function codes select. -/
theorem exec_of_not_fallback (h : isFallback i = false) (s : State) :
    exec i s = .next (s.deliver (bundle i.variant (select i.variant) (render i.variant))) := by
  cases i with
  | noneOp | noneLoad | noneJalr | noneSystem | noneStore | noneBranch => cases h
  | _ => rfl

theorem exec_of_wellFormed (h : i.wellFormed = true) (s : State) :
    exec i s = .next (s.deliver (bundle i.variant (select i.variant) (render i.variant))) := by
  cases hf : isFallback i with
  | true => exact exec_of_fallback hf ((wellFormed_iff_of_fallback hf).mp h) s
  | false => exact exec_of_not_fallback hf s

/-! ## What a step answers -/

theorem frontEnd_of_decode (h : decode w = .ok v) : frontEnd w = .ok (bundle v (select v) (render v)) :=
  frontEnd_ok_iff.mpr ⟨v, h, rfl⟩

/-- One step is one call of the block's function on the word taken. -/
theorem step_eq_frontEnd (s : State) : step s = .next { s.accept with output := frontEnd s.accept.input } := by
  obtain ⟨i, hi, hstep⟩ | ⟨e, he, hstep⟩ := step_cases (s := s)
  · obtain ⟨hdec, hwf⟩ := decodeInstr_ok_iff.mp hi
    rw [hstep, exec_of_wellFormed hwf, frontEnd_of_decode hdec]
    rfl
  · rw [hstep, frontEnd_of_decode_err (decodeInstr_err_iff.mp he)]
    rfl

theorem step_of_pending_cons {ws : List Word} (h : s.pending = w :: ws) :
    step s = .next { input := w, output := frontEnd w, pending := ws } := by
  rw [step_eq_frontEnd, accept_of_cons s h]

theorem step_of_pending_nil (h : s.pending = []) :
    step s = .next { input := s.input, output := frontEnd s.input, pending := [] } := by
  rw [step_eq_frontEnd, accept_of_nil s h, ← h]

theorem coherent_frontEnd (w : Word) : Coherent (frontEnd w) := by
  cases h : formatOf (extract w 0 6) with
  | some f =>
    rw [frontEnd_of_decode (decode_of_format h)]
    exact ⟨formatAgrees_construct h, rfl, rfl, rfl, rfl, rfl⟩
  | none =>
    rw [frontEnd_of_decode_err (decode_of_no_format h)]
    exact h

/-! ## Several steps -/

theorem run_succ {k : Nat} {t : State} (h : step s = .next t) :
    Host.Core.run core (k + 1) s = Host.Core.run core k t := by
  have hcore : core.step s = .next t := h
  simp only [Host.Core.run, hcore]

/-- The words are taken one by one, and each result is that of its own word. -/
theorem run_of_pending {ws : List Word} {k : Nat} (hk : k < ws.length) (h : s.pending = ws) :
    Host.Core.run core (k + 1) s = .next { input := ws[k], output := frontEnd ws[k], pending := ws.drop (k + 1) } := by
  induction k generalizing s ws with
  | zero =>
    obtain ⟨w, vs, rfl⟩ := List.exists_cons_of_length_pos hk
    exact run_succ (step_of_pending_cons h)
  | succ k ih =>
    obtain ⟨w, vs, rfl⟩ := List.exists_cons_of_length_pos (Nat.zero_lt_of_lt hk)
    rw [run_succ (step_of_pending_cons h)]
    exact ih (Nat.lt_of_succ_lt_succ hk) rfl

/-! ## Flat wires -/

/-- Whatever the other wires carry, the wires of a variant give the variant back. -/
theorem instr_putInstr (free : Ports) (v : Instruction) : (free.putInstr v).instr = v := by
  cases v with
  | S opcode immLo funct3 rs1 rs2 immHi =>
    have hlow : ((free.immHi >>> 6 <<< 6) ||| immHi.setWidth 7).setWidth 6 = immHi := by
      ext k hk
      simp
    exact congrArg (Instruction.S opcode immLo funct3 rs1 rs2) hlow
  | _ => rfl

/-- A reassembled immediate on its wire is read back where the tag names its variant, and nowhere else. -/
theorem result_ofResult_bundle (free : Ports) (v : Instruction) (op : Op) (text : String) :
    (free.ofResult (.ok (bundle v op text))).result = .ok (bundle v op text) := by
  have hinstr := instr_putInstr free v
  cases v <;> simp_all [Ports.ofResult, Ports.result, bundle, Ports.putInstr, Ports.instr, bImmOf, sImmOf, jImmOf]

end Sys2Proof.Proofs

open Sys2Proof.Proofs

/-- Settles O3: the instruction's own variant is what decodes from its word, and `exec` answers the bundle of it. -/
theorem meaningIsTheFrontEndOfTheInstructionsWord : Obligations.MeaningIsTheFrontEndOfTheInstructionsWord := by
  intro i s hwf
  rw [exec_of_wellFormed hwf, encode, frontEnd_of_decode (decode_encodeVariant (formatAgrees_variant i))]
  rfl

/-- Settles O4: the word taken is the first pending one, or the held one. -/
theorem stepIsTheFrontEndOfTheWordTaken : Obligations.StepIsTheFrontEndOfTheWordTaken :=
  ⟨fun _ _ _ => step_of_pending_cons, fun _ => step_of_pending_nil⟩

/-- Settles O11: a step's output is the block's function of the word taken, and every such result is coherent. -/
theorem stepKeepsTheOutputsSettledAndCoherent : Obligations.StepKeepsTheOutputsSettledAndCoherent := by
  intro s t _ hstep
  obtain rfl := Host.Outcome.next.inj ((step_eq_frontEnd s).symm.trans hstep)
  exact ⟨rfl, coherent_frontEnd _⟩

/-- Settles O5: a step's answer is always the next state that holds the block's function of the word taken. -/
theorem everyStepAnswersANextState : Obligations.EveryStepAnswersANextState :=
  fun s => ⟨_, step_eq_frontEnd s⟩

/-- Settles O6: both outputs are the block's function of the one word. -/
theorem resultDependsOnTheWordAlone : Obligations.ResultDependsOnTheWordAlone := by
  intro s t s' t' w ws vs hs ht hs' ht'
  obtain rfl := Host.Outcome.next.inj ((step_of_pending_cons hs).symm.trans hs')
  obtain rfl := Host.Outcome.next.inj ((step_of_pending_cons ht).symm.trans ht')
  rfl

/-- Settles O7, by induction on the index of the word. -/
theorem sequenceResultsAreWordByWord : Obligations.SequenceResultsAreWordByWord :=
  fun _ _ _ hk h => run_of_pending hk h

/-- Settles O14: outside the nine opcode values the block's function is the error. -/
theorem unknownOpcodeIsAReturnedValue : Obligations.UnknownOpcodeIsAReturnedValue := by
  intro s w ws hpend hout
  rw [step_of_pending_cons hpend, frontEnd_of_decode_err (decode_of_not_recognised hout)]

/-- Settles O8: the word after the failing one replaces input and output both, and nothing else is kept of a call. -/
theorem failingWordLeavesNoTrace : Obligations.FailingWordLeavesNoTrace := by
  intro s bad w ws hpend hout
  have hbad := unknownOpcodeIsAReturnedValue s bad (w :: ws) hpend hout
  refine ⟨run_succ hbad, ?_⟩
  rw [run_succ hbad, run_succ (step_of_pending_cons rfl), run_succ (step_of_pending_cons rfl)]

/-- Settles O9: the held word is evaluated again, and the output is already its result. -/
theorem heldInputKeepsTheOutput : Obligations.HeldInputKeepsTheOutput := by
  intro s hpend hsettled
  rw [step_of_pending_nil hpend, ← hsettled, ← hpend]

/-- Settles O10: the reset output is the block's function of the word 0, and every such result is coherent. -/
theorem resetIsSettled : Obligations.ResetIsSettled := by
  have hsettled : State.reset.Settled := rfl
  exact ⟨hsettled, hsettled ▸ coherent_frontEnd _⟩

/-- Settles O2: every arm of `exec` ends in delivering a bundle of the row's variant. -/
theorem everyInstructionCompletesAndChangesOnlyTheOutput :
    Obligations.EveryInstructionCompletesAndChangesOnlyTheOutput := by
  intro i s
  obtain ⟨op, text, hexec⟩ := exec_eq_deliver i s
  exact ⟨_, _, hexec, rfl, rfl, rfl, rfl⟩

/-- Settles O12: a variant and its immediates come back from the wires its tag names, an error from its own two. -/
theorem flatWiresCarryTheResultWhateverTheOthersCarry : Obligations.FlatWiresCarryTheResultWhateverTheOthersCarry := by
  intro w free
  cases h : decode w with
  | ok v =>
    rw [frontEnd_of_decode h]
    exact result_ofResult_bundle ..
  | err e =>
    rw [frontEnd_of_decode_err h]
    cases e
    rfl

/-- Settles O1: presented bytes and table bits are presented words, and a word taken is run as it decodes. -/
theorem stepRunsTheDecodedInstruction : Obligations.StepRunsTheDecodedInstruction := by
  refine ⟨fun _ _ _ _ => step_of_pending, ?held, ?bytes, ?table⟩
  case held =>
    intro s i hpend hi
    rw [step, accept_of_nil s hpend, hi]
  case bytes =>
    intro s b0 b1 b2 b3 rest i h
    exact step_of_pending rfl (decodeBytes_ok_iff.mp h).1
  case table =>
    intro s n i h
    have hpend : (s.withFetchWord 32 n).pending = BitVec.ofNat 32 n :: s.pending.drop 1 := by
      rw [State.withFetchWord, tableBytes_32, ← List.append_nil (bytesOfWord _), wordsOfBytes_bytesOfWord_append]
      rfl
    exact step_of_pending hpend (decodeInstr_of_decodeTableWord h)

end

