-- ==== Sys2Proof/Proofs/Immediates.lean ====
section
/-! SUPPORT. `s_imm` and `j_imm` bit by bit and by value, the inverse of each reassembly, and the signed reading of an
immediate (42_immediates.md R110 to R118). -/

open Sys2Proof Sys2Proof.Machine Sys2Proof.Certificates

namespace Sys2Proof.Proofs

/-! ## `b_imm` -/

theorem bNumber_even (immLo : BitVec 5) (immHi : BitVec 7) : bNumber immLo immHi % 2 = 0 := by
  rw [bNumber]
  omega

theorem bNumber_le (immLo : BitVec 5) (immHi : BitVec 7) : bNumber immLo immHi ≤ 8190 := by
  rw [bNumber]
  omega

/-- The four pieces of the raw fields, read back from `b_imm`. -/
theorem bNumber_pieces (immLo : BitVec 5) (immHi : BitVec 7) :
    bNumber immLo immHi / 2 % 16 = immLo.toNat / 2 ∧ bNumber immLo immHi / 2048 % 2 = immLo.toNat % 2 ∧
      bNumber immLo immHi / 4096 = immHi.toNat / 64 ∧ bNumber immLo immHi / 32 % 64 = immHi.toNat % 64 := by
  have h2048 : bNumber immLo immHi / 2048 = immLo.toNat % 2 + 2 * (immHi.toNat / 64) := by rw [bNumber]; omega
  have h32 : bNumber immLo immHi / 32 = immHi.toNat % 64 + 64 * (immLo.toNat % 2) + 128 * (immHi.toNat / 64) := by
    rw [bNumber]; omega
  rw [h2048, h32, bNumber]
  refine ⟨?_, ?_, ?_, ?_⟩ <;> omega

/-- The rule's inverse (42_immediates.md R112 (c)). -/
theorem bNumber_eq_iff {n : Nat} (heven : n % 2 = 0) (hle : n ≤ 8190) (immLo : BitVec 5) (immHi : BitVec 7) :
    bNumber immLo immHi = n ↔
      immLo.toNat = 2 * (n / 2 % 16) + n / 2048 % 2 ∧ immHi.toNat = 64 * (n / 4096) + n / 32 % 64 := by
  constructor
  · rintro rfl
    obtain ⟨h1, h2, h3, h4⟩ := bNumber_pieces immLo immHi
    omega
  · rintro ⟨hlo, hhi⟩
    have hlo2 : immLo.toNat / 2 = n / 2 % 16 ∧ immLo.toNat % 2 = n / 2048 % 2 := by omega
    have hhi64 : immHi.toNat / 64 = n / 4096 ∧ immHi.toNat % 64 = n / 32 % 64 := by omega
    have h32 : n / 32 = n / 2 / 16 := by rw [Nat.div_div_eq_div_mul]
    have h2048 : n / 2048 = n / 32 / 64 := by rw [Nat.div_div_eq_div_mul]
    have h4096 : n / 4096 = n / 2048 / 2 := by rw [Nat.div_div_eq_div_mul]
    rw [bNumber, hlo2.1, hlo2.2, hhi64.1, hhi64.2]
    omega

theorem bNumber_inj {lo lo' : BitVec 5} {hi hi' : BitVec 7} (h : bNumber lo hi = bNumber lo' hi') :
    lo = lo' ∧ hi = hi' := by
  obtain ⟨h1, h2, h3, h4⟩ := bNumber_pieces lo hi
  obtain ⟨h1', h2', h3', h4'⟩ := bNumber_pieces lo' hi'
  rw [h] at h1 h2 h3 h4
  rw [← BitVec.toNat_inj, ← BitVec.toNat_inj]
  omega

/-! ## `s_imm` -/

section
variable (immLo : BitVec 5) (immHi : BitVec 6) {k : Nat}

theorem sNumber_le : sNumber immLo immHi ≤ 2047 := by
  rw [sNumber]
  omega

theorem sImm_toNat : (sImm immLo immHi).toNat = sNumber immLo immHi := by
  have hle := sNumber_le immLo immHi
  rw [sNumber] at hle ⊢
  rw [sImm, BitVec.toNat_setWidth, toNat_append_eq_add]
  omega

theorem sImm_getLsbD_low (h : k ≤ 4) : (sImm immLo immHi).getLsbD k = immLo.getLsbD k := by
  simp (disch := omega) only [sImm, BitVec.getLsbD_setWidth, BitVec.getLsbD_append, if_pos, decide_eq_true,
    Bool.true_and]

theorem sImm_getLsbD_high (h : k ≤ 5) : (sImm immLo immHi).getLsbD (5 + k) = immHi.getLsbD k := by
  simp (disch := omega) only [sImm, BitVec.getLsbD_setWidth, BitVec.getLsbD_append, if_neg, decide_eq_true,
    Bool.true_and, Nat.add_sub_cancel_left]

theorem sImm_getLsbD_11 : (sImm immLo immHi).getLsbD 11 = false := by
  rw [sImm, BitVec.getLsbD_setWidth, BitVec.getLsbD_of_ge (immHi ++ immLo) 11 (by decide), Bool.and_false]

theorem sNumber_inj {lo lo' : BitVec 5} {hi hi' : BitVec 6} (h : sNumber lo hi = sNumber lo' hi') :
    lo = lo' ∧ hi = hi' := by
  have hlo : lo.toNat < 32 := lo.isLt
  have hlo' : lo'.toNat < 32 := lo'.isLt
  rw [sNumber, sNumber] at h
  rw [← BitVec.toNat_inj, ← BitVec.toNat_inj]
  omega

end

/-! ## `j_imm` -/

section
variable (imm : BitVec 20) {k : Nat}

theorem jImm_getLsbD_0 : (jImm imm).getLsbD 0 = false := by
  rw [jImm, BitVec.getLsbD_cast, BitVec.getLsbD_append]
  rfl

theorem jImm_getLsbD_of_1_to_10 (h : k ≤ 9) : (jImm imm).getLsbD (1 + k) = imm.getLsbD (9 + k) := by
  simp (disch := omega) only [jImm, BitVec.getLsbD_cast, BitVec.getLsbD_append, if_pos, if_neg, extract_asWord_getLsbD,
    Nat.add_sub_cancel_left]

theorem jImm_getLsbD_11 : (jImm imm).getLsbD 11 = imm.getLsbD 8 := by
  simp (disch := omega) only [jImm, BitVec.getLsbD_cast, BitVec.getLsbD_append, if_pos, if_neg, extract_asWord_getLsbD]

theorem jImm_getLsbD_of_12_to_19 (h : k ≤ 7) : (jImm imm).getLsbD (12 + k) = imm.getLsbD k := by
  simp (disch := omega) only [jImm, BitVec.getLsbD_cast, BitVec.getLsbD_append, if_pos, if_neg, extract_asWord_getLsbD]
  congr 1
  omega

theorem jImm_getLsbD_20 : (jImm imm).getLsbD 20 = imm.getLsbD 19 := by
  simp (disch := omega) only [jImm, BitVec.getLsbD_cast, BitVec.getLsbD_append, if_neg, extract_asWord_getLsbD]

theorem jImm_toNat : (jImm imm).toNat = jNumber imm := by
  simp (disch := omega) only [jImm, BitVec.toNat_cast, toNat_append_eq_add, extract_asWord_toNat, jNumber,
    BitVec.ofNat_eq_ofNat, BitVec.toNat_ofNat]
  norm_num only
  omega

theorem jNumber_even : jNumber imm % 2 = 0 := by
  rw [jNumber]
  omega

theorem jNumber_le : jNumber imm ≤ 2097150 := by
  rw [jNumber]
  omega

/-- The four pieces of the raw field, read back from `j_imm`. -/
theorem jNumber_pieces :
    jNumber imm / 2 % 1024 = imm.toNat / 512 % 1024 ∧ jNumber imm / 2048 % 2 = imm.toNat / 256 % 2 ∧
      jNumber imm / 4096 % 256 = imm.toNat % 256 ∧ jNumber imm / 1048576 = imm.toNat / 524288 := by
  have h2048 : jNumber imm / 2048 = imm.toNat / 256 % 2 + 2 * (imm.toNat % 256) + 512 * (imm.toNat / 524288) := by
    rw [jNumber]; omega
  have h4096 : jNumber imm / 4096 = imm.toNat % 256 + 256 * (imm.toNat / 524288) := by rw [jNumber]; omega
  have h2 : jNumber imm / 2 = imm.toNat / 512 % 1024 + 1024 * (jNumber imm / 2048) := by
    rw [h2048, jNumber]; omega
  rw [h2, h2048, h4096, jNumber]
  refine ⟨?_, ?_, ?_, ?_⟩ <;> omega

theorem jNumber_inj {imm imm' : BitVec 20} (h : jNumber imm = jNumber imm') : imm = imm' := by
  obtain ⟨h1, h2, h3, h4⟩ := jNumber_pieces imm
  obtain ⟨h1', h2', h3', h4'⟩ := jNumber_pieces imm'
  have h256 : imm.toNat / 512 = imm.toNat / 256 / 2 := by rw [Nat.div_div_eq_div_mul]
  have h256' : imm'.toNat / 512 = imm'.toNat / 256 / 2 := by rw [Nat.div_div_eq_div_mul]
  have h512 : imm.toNat / 524288 = imm.toNat / 512 / 1024 := by rw [Nat.div_div_eq_div_mul]
  have h512' : imm'.toNat / 524288 = imm'.toNat / 512 / 1024 := by rw [Nat.div_div_eq_div_mul]
  rw [h] at h1 h2 h3 h4
  rw [← BitVec.toNat_inj]
  omega

end

/-! ## Presence -/

theorem bImmOf_isSome_iff (v : Instruction) : (bImmOf v).isSome = true ↔ v.format = .B := by
  cases v <;> simp [bImmOf, Instruction.format]

theorem sImmOf_isSome_iff (v : Instruction) : (sImmOf v).isSome = true ↔ v.format = .S := by
  cases v <;> simp [sImmOf, Instruction.format]

theorem jImmOf_isSome_iff (v : Instruction) : (jImmOf v).isSome = true ↔ v.format = .J := by
  cases v <;> simp [jImmOf, Instruction.format]

/-! ## The signed reading -/

/-- Read from its top bit, an immediate is its two's-complement value. -/
theorem consumerSigned_eq_toInt {n : Nat} (v : BitVec (n + 1)) : consumerSigned v n = v.toInt := by
  rw [consumerSigned, BitVec.toInt_eq_msb_cond, BitVec.msb_eq_getLsbD_last, Nat.add_sub_cancel]
  split <;> simp

/-- With the top bit clear, the signed reading is the pattern itself. -/
theorem consumerSigned_eq_toNat {n : Nat} {v : BitVec (n + 1)} (h : v.getLsbD n = false) :
    consumerSigned v n = v.toNat := by
  rw [consumerSigned, h]
  simp

/-- The range of the signed reading. -/
theorem consumerSigned_bounds {n : Nat} (v : BitVec (n + 1)) :
    -2 ^ n ≤ consumerSigned v n ∧ consumerSigned v n < 2 ^ n := by
  rw [consumerSigned_eq_toInt]
  exact ⟨v.le_toInt, BitVec.toInt_lt⟩

/-- An even pattern stays even when its sign is read, so it stops one below the greatest odd value. -/
theorem consumerSigned_emod_two {n : Nat} {v : BitVec (n + 1)} (h : v.toNat % 2 = 0) : consumerSigned v n % 2 = 0 := by
  rw [consumerSigned, pow_succ', mul_assoc]
  omega

end Sys2Proof.Proofs

open Sys2Proof.Proofs

/-- Settles O33: by value `b_imm` is `bNumber`, whose inverse is arithmetic. -/
theorem branchImmediateIsABijectionOntoEvenOffsets : Obligations.BranchImmediateIsABijectionOntoEvenOffsets := by
  refine ⟨fun immLo immHi => ?_, fun n heven hle immLo immHi => ?_⟩
  · rw [bImm_toNat]
    exact ⟨bNumber_even .., bNumber_le ..⟩
  · rw [bImm_toNat]
    exact bNumber_eq_iff heven hle ..

/-- Settles O34: the halves lie side by side, below bit 11. -/
theorem storeImmediateStacksTheHalves : Obligations.StoreImmediateStacksTheHalves := by
  intro immLo immHi
  exact ⟨sImm_toNat .., (sImm_toNat ..).trans_le (sNumber_le ..), sImm_getLsbD_11 .., fun _ => sImm_getLsbD_low _ _,
    fun _ => sImm_getLsbD_high _ _⟩

/-- Settles O35: each bit lies in one slice of the concatenation, and the value determines the slices. -/
theorem jumpImmediateIsReassembled : Obligations.JumpImmediateIsReassembled := by
  intro imm
  refine ⟨jImm_getLsbD_0 imm, fun _ => jImm_getLsbD_of_1_to_10 imm, jImm_getLsbD_11 imm,
    fun _ => jImm_getLsbD_of_12_to_19 imm, jImm_getLsbD_20 imm, jImm_toNat imm,
    (jImm_toNat imm).trans_le (jNumber_le imm), fun imm' h => jNumber_inj ?_⟩
  rw [← jImm_toNat, ← jImm_toNat, h]

/-- Settles O36: each immediate is that of one format, which is that of one opcode value. -/
theorem immediatesArePresentForTheirVariantOnly : Obligations.ImmediatesArePresentForTheirVariantOnly := by
  intro w d hd
  obtain ⟨v, hv, rfl⟩ := frontEnd_ok_iff.mp hd
  have hB : v.format = .B ↔ w.toNat % 128 = 99 := format_eq_iff_of_decode (n := 99) hv (by decide)
  have hJ : v.format = .J ↔ w.toNat % 128 = 111 := format_eq_iff_of_decode (n := 111) hv (by decide)
  rw [← format_eq_S_iff_of_decode hv, ← hB, ← hJ]
  exact ⟨bImmOf_isSome_iff v, sImmOf_isSome_iff v, jImmOf_isSome_iff v⟩

/-- Settles O37: the sign-bit positions are the top bits; `b_imm` and `j_imm` are even, and bit 11 of `s_imm` is 0. -/
theorem consumersSignedReadingOfTheImmediates : Obligations.ConsumersSignedReadingOfTheImmediates := by
  refine ⟨⟨rfl, rfl, rfl, rfl⟩, fun immLo immHi => ⟨consumerSigned_eq_toInt _, ?b⟩,
    fun imm => ⟨consumerSigned_eq_toInt _, ?j⟩, fun immLo immHi => ⟨consumerSigned_eq_toInt _, ?s⟩,
    fun imm => ⟨consumerSigned_eq_toInt _, ?i⟩⟩
  case b =>
    have hbounds := consumerSigned_bounds (n := 12) (bImm immLo immHi)
    have heven := consumerSigned_emod_two (n := 12) (v := bImm immLo immHi) (by rw [bImm_toNat, bNumber_even])
    rw [bImmSignBit]
    omega
  case j =>
    have hbounds := consumerSigned_bounds (n := 20) (jImm imm)
    have heven := consumerSigned_emod_two (n := 20) (v := jImm imm) (by rw [jImm_toNat, jNumber_even])
    rw [jImmSignBit]
    omega
  case s =>
    have hle : (sImm immLo immHi).toNat ≤ 2047 := (sImm_toNat ..).trans_le (sNumber_le ..)
    rw [sImmSignBit, consumerSigned_eq_toNat (n := 11) (sImm_getLsbD_11 ..)]
    omega
  case i =>
    have hbounds := consumerSigned_bounds (n := 11) imm
    rw [iImmSignBit]
    omega

end

