-- ==== Sys2Proof/Proofs/Answers.lean ====
section
/-! SUPPORT. What the LOAD, STORE, `lui` and `jal` rows and the fallback classes answer, in the forms of the statements
(43_opselect.md R126 to R165, 44_render.md R183 to R190). -/

open Sys2Proof Sys2Proof.Machine Sys2Proof.Certificates

namespace Sys2Proof.Proofs

/-- The statements write the bracket and the base register's `x` as one literal, the model as two. -/
theorem bracket_x : "(x" = "(" ++ "x" := rfl

theorem lineRegMem_eq (op : Op) (a : RegIdx) (offset : Nat) (base : RegIdx) :
    lineRegMem op a offset base = mn op ++ " " ++ regMem a offset base := by
  simp only [lineRegMem, regMem, reg, bracket_x, String.append_assoc]

theorem sImm_eq_ofNat (immLo : BitVec 5) (immHi : BitVec 6) :
    sImm immLo immHi = BitVec.ofNat 12 (sNumber immLo immHi) := by
  rw [← sImm_toNat, BitVec.ofNat_toNat, BitVec.setWidth_eq]

theorem bImm_eq_ofNat (immLo : BitVec 5) (immHi : BitVec 7) :
    bImm immLo immHi = BitVec.ofNat 13 (bNumber immLo immHi) := by
  rw [← bImm_toNat, BitVec.ofNat_toNat, BitVec.setWidth_eq]

theorem jImm_eq_ofNat (imm : BitVec 20) : jImm imm = BitVec.ofNat 21 (jNumber imm) := by
  rw [← jImm_toNat, BitVec.ofNat_toNat, BitVec.setWidth_eq]

section
variable (op : Op) (funct3 : Funct3) (s : State)

theorem answerLoad_eq (rd rs1 : RegIdx) (imm : BitVec 12) :
    answerLoad op funct3 rd rs1 imm s =
      .next (answered s (.I 3 rd funct3 rs1 imm) op (mn op ++ " " ++ regMem rd imm.toNat rs1)) := by
  rw [answerLoad, lineRegMem_eq]
  rfl

theorem answerStore_eq (immLo : BitVec 5) (rs1 rs2 : RegIdx) (immHi : BitVec 6) :
    answerStore op funct3 immLo rs1 rs2 immHi s =
      .next (answeredS s (.S 35 immLo funct3 rs1 rs2 immHi) op (sNumber immLo immHi)
        (mn op ++ " " ++ regMem rs2 (sNumber immLo immHi) rs1)) := by
  rw [answerStore, lineRegMem_eq, sImm_toNat, bundle, sImmOf, sImm_eq_ofNat]
  rfl

theorem lineRegNum_eq (rd : RegIdx) (number : Nat) :
    lineRegNum op rd number = mn op ++ " x" ++ dec rd.toNat ++ ", " ++ dec number := by
  have hx : " x" = " " ++ "x" := rfl
  simp only [lineRegNum, reg, hx, String.append_assoc]

theorem answerDump_store_eq (immLo : BitVec 5) (rs1 rs2 : RegIdx) (immHi : BitVec 6) :
    answerDump (.S 35 immLo funct3 rs1 rs2 immHi) s =
      .next (answeredS s (.S 35 immLo funct3 rs1 rs2 immHi) .none (sNumber immLo immHi)
        (dump (.S 35 immLo funct3 rs1 rs2 immHi))) := by
  rw [answerDump, bundle, sImmOf, sImm_eq_ofNat]
  rfl

theorem answerDump_branch_eq (immLo : BitVec 5) (rs1 rs2 : RegIdx) (immHi : BitVec 7) :
    answerDump (.B 99 immLo funct3 rs1 rs2 immHi) s =
      .next (answeredB s (.B 99 immLo funct3 rs1 rs2 immHi) .none (bNumber immLo immHi)
        (dump (.B 99 immLo funct3 rs1 rs2 immHi))) := by
  rw [answerDump, bundle, bImmOf, bImm_eq_ofNat]
  rfl

end

/-- A JALR or SYSTEM word has the I variant of its own fields, which selects nothing. -/
theorem step_of_unselected_I {s : State} {w : Word} {ws : List Word} (hpend : s.pending = w :: ws)
    (hdec : decode w = .ok (mkI w)) (hnone : select (mkI w) = .none) :
    step s = .next (answered { s with input := w, pending := ws } (mkI w) .none (dump (mkI w))) := by
  rw [step_of_pending_cons hpend, frontEnd_of_decode hdec, render_of_select_eq_none hnone, hnone]
  rfl

end Sys2Proof.Proofs

open Sys2Proof.Proofs

/-- Settles O45: each of the ten rows is the OP answer at its own key. -/
theorem registerRegisterInstructionsAnswer : Obligations.RegisterRegisterInstructionsAnswer := by
  intro rd rs1 rs2 s
  refine ⟨?_, ?_, ?_, ?_, ?_, ?_, ?_, ?_, ?_, ?_⟩ <;> exact answerOp_eq ..

/-- Settles O46: each of the eight rows is the OP-IMM answer at its own key. -/
theorem registerImmediateInstructionsAnswer : Obligations.RegisterImmediateInstructionsAnswer := by
  intro rd rs1 imm s
  refine ⟨?_, ?_, ?_, ?_, ?_, ?_, ?_, ?_⟩ <;> exact answerOpImm_eq ..

/-- Settles O47: each of the five rows is the LOAD answer at its own key. -/
theorem loadInstructionsAnswer : Obligations.LoadInstructionsAnswer := by
  intro rd rs1 imm s
  refine ⟨?_, ?_, ?_, ?_, ?_⟩ <;> exact answerLoad_eq ..

/-- Settles O48: each of the three rows is the STORE answer at its own key. -/
theorem storeInstructionsAnswer : Obligations.StoreInstructionsAnswer := by
  intro immLo rs1 rs2 immHi s
  refine ⟨?_, ?_, ?_⟩ <;> exact answerStore_eq ..

/-- Settles O49: each of the six rows is the BRANCH answer at its own key. -/
theorem branchInstructionsAnswer : Obligations.BranchInstructionsAnswer := by
  intro immLo rs1 rs2 immHi s
  refine ⟨?_, ?_, ?_, ?_, ?_, ?_⟩ <;> exact answerBranch_eq ..

/-- Settles O50: the line of the operation, with `j_imm` by its value for `jal`. -/
theorem luiAndJalAnswer : Obligations.LuiAndJalAnswer := by
  intro rd imm s
  refine ⟨?lui, ?jal⟩
  case lui =>
    rw [exec, execLui, lineRegNum_eq]
    rfl
  case jal =>
    rw [exec, execJal, lineRegNum_eq, jImm_toNat, bundle, jImmOf, jImm_eq_ofNat]
    rfl

/-- Settles O51: every fallback arm answers the dump, and only the store and branch variants carry an immediate. -/
theorem fallbackInstructionsAnswer : Obligations.FallbackInstructionsAnswer :=
  ⟨fun _ _ _ _ _ _ => rfl, fun _ _ _ _ _ => ⟨rfl, rfl, rfl⟩, fun _ _ _ _ _ _ => answerDump_store_eq ..,
    fun _ _ _ _ _ _ => answerDump_branch_eq ..⟩

/-- Settles O44: no key of opcode 103 or 115 selects, so the bundle has the dump of the word's I variant. -/
theorem jalrAndSystemWordsSelectNone : Obligations.JalrAndSystemWordsSelectNone := by
  intro s w ws hpend hopc
  have hmkI : mkI w = .I (fieldAt w 0 7) (fieldAt w 7 5) (fieldAt w 12 3) (fieldAt w 15 5) (fieldAt w 20 12) := by
    simp only [mkI, extract_eq_fieldAt]
  rw [← hmkI]
  obtain h103 | h115 := hopc
  · exact step_of_unselected_I hpend (decode_of_opcode h103 rfl) (select_mkI_eq_none h103 (by decide) (by decide))
  · exact step_of_unselected_I hpend (decode_of_opcode h115 rfl) (select_mkI_eq_none h115 (by decide) (by decide))

end

