-- ==== Sys2Proof/Proofs/OpcodeTable.lean ====
section
/-! SUPPORT. The opcode table read by mask and match (30_encoding.md R60): which fields of a word a selected row fixes,
that rows of one kind exclude each other, and that the row selected is the decoded instruction's. -/

open Sys2Proof Sys2Proof.Machine Sys2Proof.Certificates

namespace Sys2Proof.Proofs

variable {w : Word} {i : Instr} {r q : TableRow} {rows : List TableRow}

theorem selects_iff : r.selects w = true ↔ w &&& r.mask = r.bits := beq_iff_eq

/-! ## Rows exclude each other -/

/-- Two rows whose match values agree under both masks are the same row. -/
def Exclusive (rows : List TableRow) : Prop :=
  ∀ r ∈ rows, ∀ q ∈ rows, r.bits &&& q.mask = q.bits &&& r.mask → r = q

theorem exclusive_mnemonicRows : Exclusive mnemonicRows := by
  unfold Exclusive
  decide

theorem exclusive_fallbackRows : Exclusive fallbackRows := by
  unfold Exclusive
  decide

theorem Exclusive.eq (h : Exclusive rows) (hr : r ∈ rows) (hq : q ∈ rows) (hrw : r.selects w = true)
    (hqw : q.selects w = true) : r = q := by
  apply h r hr q hq
  rw [← selects_iff.mp hrw, ← selects_iff.mp hqw, BitVec.and_assoc, BitVec.and_assoc, BitVec.and_comm r.mask]

theorem Exclusive.find?_eq (h : Exclusive rows) (hr : r ∈ rows) (hrw : r.selects w = true) :
    rows.find? (·.selects w) = some r := by
  cases hfind : rows.find? (·.selects w) with
  | none => exact absurd hrw (List.find?_eq_none.mp hfind r hr)
  | some q =>
    have hqw : q.selects w = true := List.find?_some (p := fun row : TableRow => row.selects w) hfind
    rw [h.eq (List.mem_of_find?_eq_some hfind) hr hqw hrw]

/-! ## The fields a selected row fixes -/

theorem extract_and (u w : Word) {lo hi : Nat} (valid : lo ≤ hi ∧ hi ≤ 31) :
    extract (u &&& w) lo hi valid = extract u lo hi valid &&& extract w lo hi valid :=
  BitVec.extractLsb_and

/-- A field all of whose bits are in the mask is that of the match value. -/
theorem extract_of_selects (h : r.selects w = true) {lo hi : Nat} (valid : lo ≤ hi ∧ hi ≤ 31)
    (hmask : extract r.mask lo hi valid = BitVec.allOnes _) : extract w lo hi valid = extract r.bits lo hi valid := by
  rw [← selects_iff.mp h, extract_and, hmask, BitVec.and_allOnes]

/-- Every row's mask holds the opcode, and every row's opcode has a format. -/
theorem mask_opcode : ∀ r ∈ mnemonicRows ++ fallbackRows,
    extract r.mask 0 6 = BitVec.allOnes 7 ∧ formatOf (extract r.bits 0 6) ≠ none := by
  decide

/-- A mnemonic row's mask holds the rest of the dispatch key of its format (30_encoding.md R59). -/
theorem mask_funct3 : ∀ r ∈ mnemonicRows, formatOf (extract r.bits 0 6) ≠ some .U →
    formatOf (extract r.bits 0 6) ≠ some .J → extract r.mask 12 14 = BitVec.allOnes 3 := by
  decide

theorem mask_funct7 : ∀ r ∈ mnemonicRows, formatOf (extract r.bits 0 6) = some .R →
    extract r.mask 25 31 = BitVec.allOnes 7 := by
  decide

/-- The key in a mnemonic row's match value selects the row's mnemonic. -/
theorem mn_select_bits : ∀ r ∈ mnemonicRows,
    (formatOf (extract r.bits 0 6)).map (fun f => mn (select (construct f r.bits))) = some r.mnemonic := by
  decide

theorem mnemonic_ne_empty : ∀ r ∈ mnemonicRows, r.mnemonic ≠ mn .none := by
  decide

/-- Bit 31, which the encoder drops from a store word, is in no store row's mask. -/
theorem mask_store : ∀ r ∈ mnemonicRows ++ fallbackRows, extract r.bits 0 6 = 35 →
    0x7FFFFFFF &&& r.mask = r.mask := by
  decide

theorem opcode_of_selects (hr : r ∈ mnemonicRows ++ fallbackRows) (h : r.selects w = true) :
    (extract w 0 6 : Opcode) = extract r.bits 0 6 :=
  extract_of_selects h _ (mask_opcode r hr).1

/-! ## The row of the decoded instruction -/

/-- The word and the match value have the same key, so the selected mnemonic is the row's. -/
theorem mnemonic_of_selects (hi : decodeInstr w = .ok i) (hr : r ∈ mnemonicRows) (h : r.selects w = true) :
    i.mnemonic = r.mnemonic := by
  obtain ⟨hdec, hwf⟩ := decodeInstr_ok_iff.mp hi
  obtain ⟨f, hf, hv⟩ := decode_ok_iff.mp hdec
  have hopc : (extract w 0 6 : Opcode) = extract r.bits 0 6 := opcode_of_selects (List.mem_append_left _ hr) h
  rw [hopc] at hf
  have hselect : select i.variant = select (construct f r.bits) := by
    rw [hv]
    apply select_construct_congr hopc
    · exact fun hU hJ => extract_of_selects h _ (mask_funct3 r hr (by simpa [hf] using hU) (by simpa [hf] using hJ))
    · rintro rfl
      exact extract_of_selects h _ (mask_funct7 r hr hf)
  have hmn : mn (select i.variant) = r.mnemonic := by
    simpa only [hselect, hf, Option.map_some, Option.some_inj] using mn_select_bits r hr
  cases hfb : isFallback i with
  | false => rw [← mn_select_of_not_fallback hfb, hmn]
  | true =>
    rw [(wellFormed_iff_of_fallback hfb).mp hwf] at hmn
    exact absurd hmn.symm (mnemonic_ne_empty r hr)

theorem selectsItsRow (i : Instr) : Laws.SelectsItsRow.Statement i := by
  cases i with
  | add => exact Laws.SelectsItsRow.add ..
  | sub => exact Laws.SelectsItsRow.sub ..
  | xor => exact Laws.SelectsItsRow.xor ..
  | or => exact Laws.SelectsItsRow.or ..
  | and => exact Laws.SelectsItsRow.and ..
  | sll => exact Laws.SelectsItsRow.sll ..
  | srl => exact Laws.SelectsItsRow.srl ..
  | sra => exact Laws.SelectsItsRow.sra ..
  | slt => exact Laws.SelectsItsRow.slt ..
  | sltu => exact Laws.SelectsItsRow.sltu ..
  | addi => exact Laws.SelectsItsRow.addi ..
  | xori => exact Laws.SelectsItsRow.xori ..
  | ori => exact Laws.SelectsItsRow.ori ..
  | andi => exact Laws.SelectsItsRow.andi ..
  | slli => exact Laws.SelectsItsRow.slli ..
  | srli => exact Laws.SelectsItsRow.srli ..
  | slti => exact Laws.SelectsItsRow.slti ..
  | sltiu => exact Laws.SelectsItsRow.sltiu ..
  | lb => exact Laws.SelectsItsRow.lb ..
  | lh => exact Laws.SelectsItsRow.lh ..
  | lw => exact Laws.SelectsItsRow.lw ..
  | lbu => exact Laws.SelectsItsRow.lbu ..
  | lhu => exact Laws.SelectsItsRow.lhu ..
  | sb => exact Laws.SelectsItsRow.sb ..
  | sh => exact Laws.SelectsItsRow.sh ..
  | sw => exact Laws.SelectsItsRow.sw ..
  | beq => exact Laws.SelectsItsRow.beq ..
  | bne => exact Laws.SelectsItsRow.bne ..
  | blt => exact Laws.SelectsItsRow.blt ..
  | bge => exact Laws.SelectsItsRow.bge ..
  | bltu => exact Laws.SelectsItsRow.bltu ..
  | bgeu => exact Laws.SelectsItsRow.bgeu ..
  | lui => exact Laws.SelectsItsRow.lui ..
  | jal => exact Laws.SelectsItsRow.jal ..
  | noneOp => exact Laws.SelectsItsRow.noneOp ..
  | noneLoad => exact Laws.SelectsItsRow.noneLoad ..
  | noneJalr => exact Laws.SelectsItsRow.noneJalr ..
  | noneSystem => exact Laws.SelectsItsRow.noneSystem ..
  | noneStore => exact Laws.SelectsItsRow.noneStore ..
  | noneBranch => exact Laws.SelectsItsRow.noneBranch ..

/-- A row that the encoder's word matches is matched by every word of the instruction. -/
theorem selects_of_selects_encode (hi : decodeInstr w = .ok i) (hr : r ∈ mnemonicRows ++ fallbackRows)
    (h : r.selects (encode i) = true) : r.selects w = true := by
  obtain ⟨hdec, -⟩ := decodeInstr_ok_iff.mp hi
  have hword : encode i = keptBits i.variant.format w := encodeVariant_of_decode hdec
  by_cases hS : i.variant.format = .S
  · have hopc : i.variant.opcode = extract r.bits 0 6 :=
      (opcodeField_encodeVariant i.variant).symm.trans (opcode_of_selects hr h)
    have hagrees : formatOf i.variant.opcode = some .S := hS ▸ formatAgrees_variant i
    have h35 : extract r.bits 0 6 = 35 := hopc.symm.trans (opcode_of_format_S hagrees)
    rw [hword, keptBits, if_pos hS, selects_iff, BitVec.and_assoc, mask_store r hr h35] at h
    exact selects_iff.mpr h
  · rwa [hword, keptBits, if_neg hS] at h

theorem tableRowOf_of_decodeInstr (hi : decodeInstr w = .ok i) :
    ∃ r, tableRowOf w = some r ∧ r.mnemonic = i.mnemonic := by
  obtain ⟨r, hr, hname, henc⟩ := selectsItsRow i
  have hrw := selects_of_selects_encode hi hr henc
  refine ⟨r, ?_, hname⟩
  rw [tableRowOf]
  obtain hmnemonic | hfallback := List.mem_append.mp hr
  · rw [exclusive_mnemonicRows.find?_eq hmnemonic hrw, Option.some_or]
  · have hfb : isFallback i = true :=
      isFallback_iff_mem_fallbackRows.mpr (hname ▸ List.mem_map_of_mem hfallback)
    have hnone : mnemonicRows.find? (·.selects w) = none := by
      rw [List.find?_eq_none]
      intro q hq hqw
      have hmem : i.mnemonic ∈ mnemonicRows.map (·.mnemonic) :=
        mnemonic_of_selects hi hq hqw ▸ List.mem_map_of_mem hq
      rw [← isFallback_eq_false_iff_mem_mnemonicRows, hfb] at hmem
      cases hmem
    rw [hnone, exclusive_fallbackRows.find?_eq hfallback hrw, Option.none_or]

theorem tableRowOf_eq_none (h : formatOf (extract w 0 6) = none) : tableRowOf w = none := by
  have hrow : ∀ r ∈ mnemonicRows ++ fallbackRows, ¬r.selects w = true := fun r hr hrw =>
    (mask_opcode r hr).2 (opcode_of_selects hr hrw ▸ h)
  rw [tableRowOf, List.find?_eq_none.mpr fun r hr => hrow r (List.mem_append_left _ hr),
    List.find?_eq_none.mpr fun r hr => hrow r (List.mem_append_right _ hr), Option.none_or]

/-! ## The three classes -/

/-- What a decoded instruction's bundle says of its row: a fallback row has no operation, a mnemonic row its own. -/
theorem op_of_wellFormed (hwf : i.wellFormed = true) :
    (isFallback i = true ∧ select i.variant = .none) ∨
      (isFallback i = false ∧ select i.variant ≠ .none ∧ mn (select i.variant) = i.mnemonic) := by
  cases hfb : isFallback i with
  | true => exact .inl ⟨rfl, (wellFormed_iff_of_fallback hfb).mp hwf⟩
  | false =>
    have hmn := mn_select_of_not_fallback hfb
    obtain ⟨r, hr, hname⟩ := List.mem_map.mp (isFallback_eq_false_iff_mem_mnemonicRows.mp hfb)
    exact .inr ⟨rfl, fun hnone => mnemonic_ne_empty r hr (by rw [hname, ← hmn, hnone]), hmn⟩

end Sys2Proof.Proofs

open Sys2Proof.Proofs

/-- Settles O30: match values that one word has under both masks agree under both, and no two mnemonic rows have
such. -/
theorem noWordSelectsTwoMnemonicRows : Obligations.NoWordSelectsTwoMnemonicRows :=
  fun _ _ _ hr hq hrw hqw => exclusive_mnemonicRows.eq hr hq hrw hqw

/-- Settles O29: the word of an instruction selects its row, which no other row of its kind shares, and a fallback row
is reached only where no mnemonic row is selected; an opcode without format is in no row. -/
theorem maskAndMatchSelectTheDecodedRow : Obligations.MaskAndMatchSelectTheDecodedRow := by
  refine fun w => ⟨fun i => tableRowOf_of_decodeInstr, fun e he => ?_⟩
  cases hf : formatOf (extract w 0 6) with
  | none => exact tableRowOf_eq_none hf
  | some f => simp [decodeInstr_err_iff, decode_of_format hf] at he

/-- Settles O40: an unknown opcode fails; otherwise the decoded row is well-formed, and so a fallback row without
operation or a mnemonic row with its own. -/
theorem threeClassesOfWord : Obligations.ThreeClassesOfWord := by
  intro w
  by_cases hrec : w.toNat % 128 ∈ recognised
  · obtain ⟨v, hv⟩ := decode_of_recognised hrec
    have hi := decodeInstr_of_decode hv
    obtain ⟨hdec, hwf⟩ := decodeInstr_ok_iff.mp hi
    obtain ⟨hfb, hnone⟩ | ⟨hfb, hsel, hmn⟩ := op_of_wellFormed hwf
    · exact .inr (.inl ⟨_, _, hi, frontEnd_of_decode hdec, hnone, render_of_select_eq_none hnone,
        isFallback_iff_mem_fallbackRows.mp hfb⟩)
    · exact .inr (.inr ⟨_, _, hi, frontEnd_of_decode hdec, hsel, hmn, isFallback_eq_false_iff_mem_mnemonicRows.mp hfb⟩)
  · exact .inl ⟨hrec, _, frontEnd_of_decode_err (decode_of_not_recognised hrec)⟩

/-- Settles O15, on all 128 values. -/
theorem nineOpcodesHaveAFormat : Obligations.NineOpcodesHaveAFormat := by
  unfold Obligations.NineOpcodesHaveAFormat
  decide

/-- Settles O31, by running the decoder. -/
theorem writtenOutWordsDecode : Obligations.WrittenOutWordsDecode := by
  unfold Obligations.WrittenOutWordsDecode
  decide

/-- Settles O58, on all 32 indices. -/
theorem registerNamesAreTheCallingConventions : Obligations.RegisterNamesAreTheCallingConventions := by
  unfold Obligations.RegisterNamesAreTheCallingConventions
  decide

end

