-- ==== Sys2Proof/Proofs/Numerals.lean ====
section
/-! SUPPORT. The decimal numeral `dec` digit by digit (44_render.md R181): one digit below ten, else the numeral of the
quotient and the digit of the remainder. -/

open Sys2Proof Sys2Proof.Machine Sys2Proof.Certificates

namespace Sys2Proof.Proofs

/-! ## One digit -/

/-- The ten digits are the characters 48 to 57. -/
theorem charOfNat_digit : ∀ d < 10,
    (Char.ofNat (48 + d)).isDigit = true ∧ (Char.ofNat (48 + d)).toNat - 48 = d ∧
      (Char.ofNat (48 + d) = '0' ↔ d = 0) := by
  decide

theorem digit_isDigit (v : Nat) : (digit v).isDigit = true := (charOfNat_digit _ (Nat.mod_lt v (by decide))).1

theorem digit_value (v : Nat) : (digit v).toNat - 48 = v % 10 := (charOfNat_digit _ (Nat.mod_lt v (by decide))).2.1

theorem digit_eq_zero_iff (v : Nat) : digit v = '0' ↔ v % 10 = 0 := (charOfNat_digit _ (Nat.mod_lt v (by decide))).2.2

/-! ## The numeral -/

/-- The digits found so far stay behind the ones still to come. -/
theorem decDigits_eq_append (fuel v : Nat) (tail : List Char) :
    decDigits fuel v tail = decDigits fuel v [] ++ tail := by
  induction fuel generalizing v tail with
  | zero => rfl
  | succ fuel ih =>
    rw [decDigits, decDigits]
    split
    · rfl
    · rw [ih, ih _ [digit v], List.append_assoc, List.singleton_append]

/-- Fuel above the value is enough, however much it is. -/
theorem decDigits_fuel {fuel fuel' v : Nat} (h : v < fuel) (h' : v < fuel') (tail : List Char) :
    decDigits fuel v tail = decDigits fuel' v tail := by
  induction fuel generalizing fuel' v tail with
  | zero => exact absurd h (Nat.not_lt_zero v)
  | succ fuel ih =>
    obtain ⟨fuel', rfl⟩ : ∃ k, fuel' = k + 1 := ⟨fuel' - 1, by omega⟩
    rw [decDigits, decDigits]
    split
    · rfl
    · exact ih (by omega) (by omega) _

theorem dec_toList_of_lt {v : Nat} (h : v < 10) : (dec v).toList = [digit v] := by
  rw [dec, String.toList_ofList, decDigits, if_pos h]

theorem dec_toList_of_ge {v : Nat} (h : 10 ≤ v) : (dec v).toList = (dec (v / 10)).toList ++ [digit v] := by
  rw [dec, dec, String.toList_ofList, String.toList_ofList, decDigits, if_neg (Nat.not_lt.mpr h), decDigits_eq_append,
    decDigits_fuel (Nat.div_lt_self (by omega) (by decide)) (Nat.lt_succ_self _)]

/-- Induction along the digits of a number. -/
theorem dec_induction {P : Nat → Prop} (small : ∀ v, v < 10 → P v) (large : ∀ v, 10 ≤ v → P (v / 10) → P v) (v : Nat) :
    P v := by
  induction v using Nat.strong_induction_on with
  | h v ih =>
    obtain h | h := Nat.lt_or_ge v 10
    · exact small v h
    · exact large v h (ih _ (Nat.div_lt_self (by omega) (by decide)))

theorem dec_isDigit (v : Nat) : ∀ c ∈ (dec v).toList, c.isDigit = true := by
  induction v using dec_induction with
  | small v h => simp [dec_toList_of_lt h, digit_isDigit]
  | large v h ih => simpa [dec_toList_of_ge h, or_imp, forall_and, digit_isDigit] using ih

/-- The positional value of a list of digits, most significant first. -/
def positional (cs : List Char) : Nat := cs.foldl (fun v c => 10 * v + (c.toNat - 48)) 0

theorem positional_dec (v : Nat) : positional (dec v).toList = v := by
  induction v using dec_induction with
  | small v h =>
    rw [dec_toList_of_lt h, positional, List.foldl_cons, List.foldl_nil, digit_value]
    omega
  | large v h ih =>
    rw [positional] at ih
    rw [dec_toList_of_ge h, positional, List.foldl_append, ih, List.foldl_cons, List.foldl_nil, digit_value]
    omega

theorem dec_injective : Function.Injective dec := fun a b h => by
  rw [← positional_dec a, h, positional_dec]

theorem dec_leading (v : Nat) (hv : v ≠ 0) : ∃ c cs, (dec v).toList = c :: cs ∧ c ≠ '0' := by
  induction v using dec_induction with
  | small v h =>
    refine ⟨_, _, dec_toList_of_lt h, ?_⟩
    rw [Ne, digit_eq_zero_iff]
    omega
  | large v h ih =>
    obtain ⟨c, cs, hcs, hc⟩ := ih (by omega)
    exact ⟨c, cs ++ [digit v], by rw [dec_toList_of_ge h, hcs, List.cons_append], hc⟩

theorem dec_length_le {k : Nat} (v : Nat) (hk : 0 < k) (h : v < 10 ^ k) : (dec v).length ≤ k := by
  rw [← String.length_toList]
  induction k generalizing v with
  | zero => exact absurd hk (Nat.lt_irrefl 0)
  | succ k ih =>
    obtain hv | hv := Nat.lt_or_ge v 10
    · rw [dec_toList_of_lt hv, List.length_singleton]
      exact hk
    · have hquot : v / 10 < 10 ^ k := by rw [Nat.pow_succ] at h; omega
      have hpos : 0 < k := Nat.pos_of_ne_zero fun h0 => by rw [h0] at hquot; omega
      rw [dec_toList_of_ge hv, List.length_append, List.length_singleton]
      exact Nat.succ_le_succ (ih _ hpos hquot)

/-- The last character of a numeral is a digit. -/
theorem dec_getLast? (v : Nat) : (dec v).toList.getLast? = some (digit v) := by
  obtain h | h := Nat.lt_or_ge v 10
  · rw [dec_toList_of_lt h, List.getLast?_singleton]
  · rw [dec_toList_of_ge h, List.getLast?_concat]

end Sys2Proof.Proofs

open Sys2Proof.Proofs

/-- Settles O53, by induction along the digits. -/
theorem decimalNumeralsAreCanonical : Obligations.DecimalNumeralsAreCanonical := by
  refine fun n => ⟨positional_dec n, dec_isDigit n, ?_, dec_leading n⟩
  rintro rfl
  exact dec_toList_of_lt (by decide)

end

