-- ==== Sys2Proof/Proofs/Lines.lean ====
section
/-! SUPPORT. The two kinds of line (44_render.md R180 to R190, R195): a selected mnemonic, a space and its operands, or a
dump, the variant letter with its named fields in braces; the characters and the length of each. -/

open Sys2Proof Sys2Proof.Machine Sys2Proof.Certificates

namespace Sys2Proof.Proofs

variable {v : Instruction}

/-! ## The numerals of fields -/

section
variable {P : Char → Bool}

theorem dec_all (h : ∀ c, c.isDigit = true → P c = true) (n : Nat) : (dec n).toList.all P = true :=
  List.all_eq_true.mpr fun c hc => h c (dec_isDigit n c hc)

end

/-- A field of `n` bits has at most the digits of its greatest value. -/
theorem dec_bitVec_length_le {n : Nat} (k : Nat) (field : BitVec n) (hk : 0 < k := by decide)
    (h : 2 ^ n ≤ 10 ^ k := by decide) :
    (dec field.toNat).length ≤ k :=
  dec_length_le _ hk (Nat.lt_of_lt_of_le field.isLt h)

/-! ## Operands -/

/-- The characters after the mnemonic: digits, the register letter and the separators. -/
def isOperandChar (c : Char) : Bool := c.isDigit || ['x', ' ', ',', '(', ')'].contains c

/-- What the operand part of every mnemonic line is made of (44_render.md R183 to R189). -/
structure IsOperands (t : String) : Prop where
  chars : t.toList.all isOperandChar = true
  last : ∃ c, t.toList.getLast? = some c ∧ c ≠ ' '
  length_le : t.length ≤ 14

theorem digit_ne_space (n : Nat) : digit n ≠ ' ' := fun h => absurd (digit_isDigit n) (by rw [h]; decide)

theorem dec_all_isOperandChar (n : Nat) : (dec n).toList.all isOperandChar = true :=
  dec_all (fun c hc => by rw [isOperandChar, hc, Bool.true_or]) n

theorem getLast?_append_dec (text : String) (n : Nat) : (text ++ dec n).toList.getLast? = some (digit n) := by
  rw [String.toList_append, List.getLast?_append, dec_getLast?, Option.some_or]

theorem separator_lengths :
    "x".length = 1 ∧ ", ".length = 2 ∧ ", x".length = 3 ∧ "(x".length = 2 ∧ ")".length = 1 := by
  decide

section
variable (a b c : RegIdx) (number : Nat)

theorem isOperands_threeRegs : IsOperands (threeRegs a b c) where
  chars := by
    simp only [threeRegs, String.toList_append, List.all_append, dec_all_isOperandChar, Bool.and_true]
    decide
  last := ⟨digit c.toNat, getLast?_append_dec .., digit_ne_space _⟩
  length_le := by
    have ha := dec_bitVec_length_le 2 a
    have hb := dec_bitVec_length_le 2 b
    have hc := dec_bitVec_length_le 2 c
    have hlit := separator_lengths
    simp only [threeRegs, String.length_append]
    omega

theorem isOperands_twoRegsNumber (h : number < 10 ^ 4) : IsOperands (twoRegsNumber a b number) where
  chars := by
    simp only [twoRegsNumber, String.toList_append, List.all_append, dec_all_isOperandChar, Bool.and_true]
    decide
  last := ⟨digit number, getLast?_append_dec .., digit_ne_space _⟩
  length_le := by
    have ha := dec_bitVec_length_le 2 a
    have hb := dec_bitVec_length_le 2 b
    have hn := dec_length_le number (by decide) h
    have hlit := separator_lengths
    simp only [twoRegsNumber, String.length_append]
    omega

theorem isOperands_regMem (h : number < 10 ^ 4) : IsOperands (regMem a number b) where
  chars := by
    simp only [regMem, String.toList_append, List.all_append, dec_all_isOperandChar, Bool.and_true]
    decide
  last := ⟨')', by simp only [regMem, String.toList_append, List.getLast?_append]; rfl, by decide⟩
  length_le := by
    have ha := dec_bitVec_length_le 2 a
    have hb := dec_bitVec_length_le 2 b
    have hn := dec_length_le number (by decide) h
    have hlit := separator_lengths
    simp only [regMem, String.length_append]
    omega

/-- The operands of `lui` and `jal`. -/
def regNumber (a : RegIdx) (number : Nat) : String := "x" ++ dec a.toNat ++ ", " ++ dec number

theorem isOperands_regNumber (h : number < 10 ^ 7) : IsOperands (regNumber a number) where
  chars := by
    simp only [regNumber, String.toList_append, List.all_append, dec_all_isOperandChar, Bool.and_true]
    decide
  last := ⟨digit number, getLast?_append_dec .., digit_ne_space _⟩
  length_le := by
    have ha := dec_bitVec_length_le 2 a
    have hn := dec_length_le number (by decide) h
    have hlit := separator_lengths
    simp only [regNumber, String.length_append]
    omega

end

/-! ## Mnemonic lines -/

/-- The operands of a line whose operation is selected: the template of the variant (44_render.md R183 to R189). -/
def operandsOf : Instruction → String
  | .R _ rd _ rs1 rs2 _ => threeRegs rd rs1 rs2
  | .I opcode rd _ rs1 imm => if opcode = 3 then regMem rd imm.toNat rs1 else twoRegsNumber rd rs1 imm.toNat
  | .S _ immLo _ rs1 rs2 immHi => regMem rs2 (sNumber immLo immHi) rs1
  | .B _ immLo _ rs1 rs2 immHi => twoRegsNumber rs1 rs2 (bNumber immLo immHi)
  | .U _ rd imm => regNumber rd imm.toNat
  | .J _ rd imm => regNumber rd (jNumber imm)

theorem isOperands_operandsOf (v : Instruction) : IsOperands (operandsOf v) := by
  cases v with
  | R => exact isOperands_threeRegs ..
  | I opcode rd funct3 rs1 imm =>
    have himm : imm.toNat < 10 ^ 4 := by omega
    rw [operandsOf]
    split
    · exact isOperands_regMem _ _ _ himm
    · exact isOperands_twoRegsNumber _ _ _ himm
  | S opcode immLo funct3 rs1 rs2 immHi =>
    have hle := sNumber_le immLo immHi
    exact isOperands_regMem _ _ _ (by omega)
  | B opcode immLo funct3 rs1 rs2 immHi =>
    have hle := bNumber_le immLo immHi
    exact isOperands_twoRegsNumber _ _ _ (by omega)
  | U opcode rd imm => exact isOperands_regNumber _ _ (by omega)
  | J opcode rd imm =>
    have hle := jNumber_le imm
    exact isOperands_regNumber _ _ (by omega)

theorem lineRegNum_eq_regNumber (op : Op) (rd : RegIdx) (number : Nat) :
    lineRegNum op rd number = mn op ++ " " ++ regNumber rd number := by
  simp only [lineRegNum, regNumber, reg, String.append_assoc]

/-- Among the operations of format I, the five of opcode 3 are the loads, and the rest are not. -/
theorem selectI_mem_loads_iff (opcode : Opcode) (funct3 : Funct3) (h : selectI opcode funct3 ≠ .none) :
    selectI opcode funct3 ∈ [Op.lb, .lh, .lw, .lbu, .lhu] ↔ opcode = 3 := by
  revert opcode funct3
  decide

theorem render_I_of_load {opcode : Opcode} {rd rs1 : RegIdx} {funct3 : Funct3} {imm : BitVec 12}
    (h : selectI opcode funct3 ∈ [Op.lb, .lh, .lw, .lbu, .lhu]) :
    render (.I opcode rd funct3 rs1 imm) = mn (selectI opcode funct3) ++ " " ++ regMem rd imm.toNat rs1 := by
  rw [← lineRegMem_eq, render, select]
  simp only [List.mem_cons, List.not_mem_nil, or_false] at h
  obtain h | h | h | h | h := h <;> rw [h]

/-- A line whose operation is selected is the mnemonic, a space and the operands. -/
theorem render_of_selected (h : select v ≠ .none) : render v = mn (select v) ++ " " ++ operandsOf v := by
  cases v with
  | R => exact render_R_of_selected h
  | I opcode rd funct3 rs1 imm =>
    have hload := selectI_mem_loads_iff opcode funct3 h
    rw [operandsOf]
    split
    case isTrue h3 => exact render_I_of_load (hload.mpr h3)
    case isFalse h3 => exact render_I_of_arithmetic fun hmem => (List.mem_cons.mp hmem).elim h (mt hload.mp h3)
  | S opcode immLo funct3 rs1 rs2 immHi =>
    rw [operandsOf, ← lineRegMem_eq, ← sImm_toNat, render]
    split
    case h_1 hnone => exact absurd hnone h
    case h_2 => rfl
  | B => exact render_B_of_selected h
  | U => exact lineRegNum_eq_regNumber ..
  | J opcode rd imm =>
    rw [operandsOf, ← jImm_toNat]
    exact lineRegNum_eq_regNumber ..

theorem mn_of_ne_none (op : Op) (h : op ≠ .none) :
    (mn op).toList.all Char.isLower = true ∧ 1 ≤ (mn op).length ∧ (mn op).length ≤ 5 := by
  cases op with
  | none => exact absurd rfl h
  | _ => decide

/-! ## Dumps -/

/-- The variant letter. -/
def letterOf : Format → Char
  | .R => 'R' | .I => 'I' | .S => 'S' | .B => 'B' | .U => 'U' | .J => 'J'

/-- The names of a format's fields, in the order of 10_state.md R12. -/
def fieldNames : Format → List String
  | .R => ["opcode", "rd", "funct3", "rs1", "rs2", "funct7"]
  | .I => ["opcode", "rd", "funct3", "rs1", "imm"]
  | .S | .B => ["opcode", "imm_lo", "funct3", "rs1", "rs2", "imm_hi"]
  | .U | .J => ["opcode", "rd", "imm"]

/-- The values of a variant's fields, in the same order. -/
def fieldValues : Instruction → List Nat
  | .R opcode rd funct3 rs1 rs2 funct7 =>
    [opcode.toNat, rd.toNat, funct3.toNat, rs1.toNat, rs2.toNat, funct7.toNat]
  | .I opcode rd funct3 rs1 imm => [opcode.toNat, rd.toNat, funct3.toNat, rs1.toNat, imm.toNat]
  | .S opcode immLo funct3 rs1 rs2 immHi =>
    [opcode.toNat, immLo.toNat, funct3.toNat, rs1.toNat, rs2.toNat, immHi.toNat]
  | .B opcode immLo funct3 rs1 rs2 immHi =>
    [opcode.toNat, immLo.toNat, funct3.toNat, rs1.toNat, rs2.toNat, immHi.toNat]
  | .U opcode rd imm => [opcode.toNat, rd.toNat, imm.toNat]
  | .J opcode rd imm => [opcode.toNat, rd.toNat, imm.toNat]

/-- A field of a dump: its name, a colon, a space, its value. -/
def namedField (name : String) (value : Nat) : String := name ++ ": " ++ dec value

/-- The fields between the braces of a dump. -/
def dumpBody (v : Instruction) : String :=
  String.intercalate ", " (List.zipWith namedField (fieldNames v.format) (fieldValues v))

theorem dump_eq_dumpOf (v : Instruction) :
    dump v =
      dumpOf (String.ofList [letterOf v.format]) (List.zipWith namedField (fieldNames v.format) (fieldValues v)) := by
  cases v <;> rfl

/-- A dump character by character: the letter and the opening brace, the fields, the closing brace. -/
theorem dump_toList (v : Instruction) :
    (dump v).toList =
      [letterOf v.format, ' ', Char.ofNat 123, ' '] ++ (dumpBody v).toList ++ [' ', Char.ofNat 125] := by
  rw [dump_eq_dumpOf, dumpOf, ← dumpBody]
  simp only [String.toList_append, String.toList_ofList, List.append_assoc]
  rfl

/-- The characters of a dump's fields. -/
def isFieldChar (c : Char) : Bool := c.isLower || c.isDigit || [' ', ',', ':', '_'].contains c

theorem namedField_all {name : String} (h : name.toList.all isFieldChar = true) (value : Nat) :
    (namedField name value).toList.all isFieldChar = true := by
  have hdec : (dec value).toList.all isFieldChar = true := dec_all (fun c hc => by simp [isFieldChar, hc]) value
  rw [namedField, String.toList_append, String.toList_append, List.all_append, List.all_append, h, hdec]
  decide

theorem intercalate_all {texts : List String} (h : ∀ t ∈ texts, t.toList.all isFieldChar = true) :
    (String.intercalate ", " texts).toList.all isFieldChar = true := by
  induction texts with
  | nil => rfl
  | cons t texts ih =>
    obtain ⟨ht, htexts⟩ := List.forall_mem_cons.mp h
    cases texts with
    | nil => rwa [String.intercalate_singleton]
    | cons u texts =>
      rw [String.intercalate_cons_cons, String.toList_append, String.toList_append, List.all_append, List.all_append,
        ht, ih htexts]
      decide

theorem fieldNames_all (f : Format) : ∀ name ∈ fieldNames f, name.toList.all isFieldChar = true := by
  cases f <;> decide

theorem dumpBody_all (v : Instruction) : (dumpBody v).toList.all isFieldChar = true := by
  apply intercalate_all
  intro t ht
  rw [← List.map_uncurry_zip_eq_zipWith] at ht
  obtain ⟨⟨name, value⟩, hmem, rfl⟩ := List.mem_map.mp ht
  exact namedField_all (fieldNames_all _ name (List.of_mem_zip hmem).1) value

/-! ## Lengths -/

theorem intercalate_length {texts : List String} (h : texts ≠ []) :
    (String.intercalate ", " texts).length + 2 = (texts.map (·.length + 2)).sum := by
  induction texts with
  | nil => exact absurd rfl h
  | cons t texts ih =>
    cases texts with
    | nil => simp
    | cons u texts =>
      rw [String.intercalate_cons_cons, String.length_append, String.length_append, List.map_cons, List.sum_cons,
        ← ih (List.cons_ne_nil _ _), separator_lengths.2.1]
      omega

/-- The number of digits of the greatest value of each field, for the opcode among the format's own opcodes. -/
def fieldDigits : Format → List Nat
  | .R | .B => [2, 2, 1, 2, 2, 3]
  | .I => [3, 2, 1, 2, 4]
  | .S => [2, 2, 1, 2, 2, 2]
  | .U | .J => [3, 2, 7]

theorem fieldValues_digits (h : FormatAgrees v) :
    List.Forall₂ (fun value k => (dec value).length ≤ k) (fieldValues v) (fieldDigits v.format) := by
  cases v with
  | R opcode rd funct3 rs1 rs2 funct7 =>
    obtain rfl : opcode = 51 := opcode_of_format_R h
    exact .cons (by decide) <| .cons (dec_bitVec_length_le 2 rd) <| .cons (dec_bitVec_length_le 1 funct3) <|
      .cons (dec_bitVec_length_le 2 rs1) <| .cons (dec_bitVec_length_le 2 rs2) <|
      .cons (dec_bitVec_length_le 3 funct7) .nil
  | I opcode rd funct3 rs1 imm =>
    exact .cons (dec_bitVec_length_le 3 opcode) <| .cons (dec_bitVec_length_le 2 rd) <|
      .cons (dec_bitVec_length_le 1 funct3) <| .cons (dec_bitVec_length_le 2 rs1) <|
      .cons (dec_bitVec_length_le 4 imm) .nil
  | S opcode immLo funct3 rs1 rs2 immHi =>
    obtain rfl : opcode = 35 := opcode_of_format_S h
    exact .cons (by decide) <| .cons (dec_bitVec_length_le 2 immLo) <| .cons (dec_bitVec_length_le 1 funct3) <|
      .cons (dec_bitVec_length_le 2 rs1) <| .cons (dec_bitVec_length_le 2 rs2) <|
      .cons (dec_bitVec_length_le 2 immHi) .nil
  | B opcode immLo funct3 rs1 rs2 immHi =>
    obtain rfl : opcode = 99 := opcode_of_format_B h
    exact .cons (by decide) <| .cons (dec_bitVec_length_le 2 immLo) <| .cons (dec_bitVec_length_le 1 funct3) <|
      .cons (dec_bitVec_length_le 2 rs1) <| .cons (dec_bitVec_length_le 2 rs2) <|
      .cons (dec_bitVec_length_le 3 immHi) .nil
  | U opcode rd imm | J opcode rd imm =>
    exact .cons (dec_bitVec_length_le 3 opcode) <| .cons (dec_bitVec_length_le 2 rd) <|
      .cons (dec_bitVec_length_le 7 imm) .nil

theorem namedFields_length_le (names : List String) {values digits : List Nat}
    (h : List.Forall₂ (fun value k => (dec value).length ≤ k) values digits) :
    ((List.zipWith namedField names values).map (·.length + 2)).sum ≤
      (List.zipWith (fun name k => name.length + 2 + k + 2) names digits).sum := by
  induction h generalizing names with
  | nil => simp
  | @cons value k values digits hk _ ih =>
    cases names with
    | nil => simp
    | cons name names =>
      have hcolon : ": ".length = 2 := by decide
      simp only [List.zipWith_cons_cons, List.map_cons, List.sum_cons, namedField, String.length_append, hcolon]
      exact Nat.add_le_add (by omega) (ih names)

/-- The names, separators and greatest numerals of a format's fields. -/
theorem fieldDigits_sum_le (f : Format) :
    (List.zipWith (fun name k => name.length + 2 + k + 2) (fieldNames f) (fieldDigits f)).sum ≤ 66 := by
  cases f <;> decide

theorem dump_length_le (h : FormatAgrees v) : (dump v).length ≤ 70 := by
  have hne : List.zipWith namedField (fieldNames v.format) (fieldValues v) ≠ [] := by
    cases v <;> exact List.cons_ne_nil _ _
  have hbody : (dumpBody v).length + 2 ≤ 66 := by
    rw [dumpBody, intercalate_length hne]
    exact (namedFields_length_le _ (fieldValues_digits h)).trans (fieldDigits_sum_le _)
  rw [← String.length_toList, dump_toList]
  simp only [List.length_append, List.length_cons, List.length_nil, String.length_toList]
  omega

theorem render_length_le_of_selected (h : select v ≠ .none) : (render v).length ≤ 20 := by
  have hspace : " ".length = 1 := by decide
  have hmn := mn_of_ne_none _ h
  have hoperands := (isOperands_operandsOf v).length_le
  rw [render_of_selected h, String.length_append, String.length_append]
  omega

/-! ## Characters of a line -/

theorem charOf_toNat_ne {P : Char → Bool} {n : Nat} (hn : P (Char.ofNat n) = false) {c : Char} (hc : P c = true) :
    c.toNat ≠ n := by
  rintro rfl
  rw [Char.ofNat_toNat, hc] at hn
  cases hn

/-- The characters of a mnemonic line. -/
def isLineChar (c : Char) : Bool := c.isLower || isOperandChar c

theorem render_all_of_selected (h : select v ≠ .none) : (render v).toList.all isLineChar = true := by
  have hmn : (mn (select v)).toList.all isLineChar = true :=
    List.all_eq_true.mpr fun c hc => by rw [isLineChar, List.all_eq_true.mp (mn_of_ne_none _ h).1 c hc, Bool.true_or]
  have hoperands : (operandsOf v).toList.all isLineChar = true :=
    List.all_eq_true.mpr fun c hc => by
      rw [isLineChar, List.all_eq_true.mp (isOperands_operandsOf v).chars c hc, Bool.or_true]
  rw [render_of_selected h, String.toList_append, String.toList_append, List.all_append, List.all_append, hmn,
    hoperands]
  decide

theorem isLineChar_cases {c : Char} (h : isLineChar c = true) :
    c.isLower = true ∨ c.isDigit = true ∨ c ∈ [' ', ',', '(', ')'] := by
  have hx : 'x'.isLower = true := by decide
  simp only [isLineChar, isOperandChar, List.contains_cons, Bool.or_eq_true, beq_iff_eq] at h
  obtain h | h | rfl | h := h
  · exact .inl h
  · exact .inr (.inl h)
  · exact .inl hx
  · exact .inr (.inr (by simpa using h))

theorem letterOf_isUpper (f : Format) : (letterOf f).isUpper = true := by
  cases f <;> decide

theorem letterOf_mem (f : Format) : letterOf f ∈ ['R', 'I', 'S', 'B', 'U', 'J'] := by
  cases f <;> decide

theorem isFieldChar_cases {c : Char} (h : isFieldChar c = true) :
    c.isLower = true ∨ c.isDigit = true ∨ c ∈ [' ', ','] ∨ c ∈ [':', '_'] := by
  rw [isFieldChar, Bool.or_eq_true, Bool.or_eq_true, List.contains_iff_mem, or_assoc] at h
  exact h.imp_right (Or.imp_right (List.mem_append (s := [' ', ',']) (t := [':', '_'])).mp)

/-- Outside its fields a dump has its letter, its braces and spaces. -/
theorem mem_dump {c : Char} (h : c ∈ (dump v).toList) :
    isFieldChar c = true ∨ c ∈ ['R', 'I', 'S', 'B', 'U', 'J'] ∨ c.toNat = 123 ∨ c.toNat = 125 := by
  rw [dump_toList, List.mem_append, List.mem_append] at h
  obtain (h | h) | h := h
  · simp only [List.mem_cons, List.not_mem_nil, or_false] at h
    obtain rfl | rfl | rfl | rfl := h
    · exact .inr (.inl (letterOf_mem _))
    · exact .inl (by decide)
    · exact .inr (.inr (.inl (by decide)))
    · exact .inl (by decide)
  · exact .inl (List.all_eq_true.mp (dumpBody_all v) c h)
  · simp only [List.mem_cons, List.not_mem_nil, or_false] at h
    obtain rfl | rfl := h
    · exact .inl (by decide)
    · exact .inr (.inr (.inr (by decide)))

theorem render_getLast? (v : Instruction) : (render v).toList.getLast? ≠ some ' ' := by
  by_cases h : select v = .none
  · have hbrace : ([' ', Char.ofNat 125] : List Char).getLast? = some (Char.ofNat 125) := rfl
    rw [render_of_select_eq_none h, dump_toList, List.getLast?_append, hbrace, Option.some_or]
    decide
  · obtain ⟨c, hc, hne⟩ := (isOperands_operandsOf v).last
    rw [render_of_selected h, String.toList_append, List.getLast?_append, hc, Option.some_or, Ne, Option.some_inj]
    exact hne

end Sys2Proof.Proofs

open Sys2Proof.Proofs

/-- Settles O54: a mnemonic line has lower-case letters and operand characters, a dump its letter, braces and field
characters; an operand part ends in a digit or a bracket, a dump in a brace. -/
theorem linesUseTheListedCharacters : Obligations.LinesUseTheListedCharacters := by
  intro v c hc
  refine ⟨?_, render_getLast? v⟩
  by_cases h : select v = .none
  · rw [render_of_select_eq_none h] at hc
    obtain hfield | hletter | hbrace := mem_dump hc
    · obtain hlower | hdigit | hsep | hcolon := isFieldChar_cases hfield
      · exact .inl hlower
      · exact .inr (.inl hdigit)
      · exact .inr (.inr (.inl (List.mem_append_left ['(', ')'] hsep)))
      · exact .inr (.inr (.inr ⟨h, .inl (List.mem_append_right ['R', 'I', 'S', 'B', 'U', 'J'] hcolon)⟩))
    · exact .inr (.inr (.inr ⟨h, .inl (List.mem_append_left [':', '_'] hletter)⟩))
    · exact .inr (.inr (.inr ⟨h, .inr hbrace⟩))
  · have hline := isLineChar_cases (List.all_eq_true.mp (render_all_of_selected h) c hc)
    exact hline.imp_right (Or.imp_right .inl)

/-- Settles O55: a mnemonic begins with its own first letter, a dump with the letter of its variant. -/
theorem firstCharacterTellsMnemonicFromDump : Obligations.FirstCharacterTellsMnemonicFromDump := by
  refine fun v => ⟨fun h => ⟨?_, fun c hc => ?_⟩, fun h => ?_⟩
  · obtain ⟨hlower, hpos, -⟩ := mn_of_ne_none _ h
    rw [← String.length_toList] at hpos
    obtain ⟨c, cs, hmn⟩ := List.exists_cons_of_length_pos hpos
    rw [hmn, List.all_cons, Bool.and_eq_true] at hlower
    exact ⟨c, _, by rw [render_of_selected h, String.toList_append, String.toList_append, hmn]; rfl, hlower.1⟩
  · exact charOf_toNat_ne (P := isLineChar) (by decide) (List.all_eq_true.mp (render_all_of_selected h) c hc)
  · rw [render_of_select_eq_none h, dump_toList]
    exact ⟨_, _, _, rfl, letterOf_isUpper v.format, by decide⟩

/-- Settles O56: at most five letters, a space and 14 operand characters; or at most 64 characters of named fields beside
the letter, the braces and the spaces. Both bounds are met. -/
theorem linesHaveAtMost70Characters : Obligations.LinesHaveAtMost70Characters := by
  refine ⟨fun w d hd => ?_, ⟨0xFFFFBFE3, _, rfl, by decide⟩, ⟨0xFFFFBF93, _, rfl, by decide, by decide⟩⟩
  obtain ⟨v, hv, rfl⟩ := frontEnd_ok_iff.mp hd
  refine ⟨?_, render_length_le_of_selected⟩
  by_cases h : select v = .none
  · rw [bundle_text, render_of_select_eq_none h]
    exact dump_length_le (formatAgrees_of_decode hv)
  · exact (render_length_le_of_selected h).trans (by decide)

end

