-- ==== Sys2Proof/Proofs/LineReading.lean ====
section
/-! SUPPORT. Reading a line back (44_render.md R195 (b), (c)): a run of letters or digits is told from what follows it,
so the mnemonic and the numerals of a line are determined; they determine the variant. -/

open Sys2Proof Sys2Proof.Machine Sys2Proof.Certificates

namespace Sys2Proof.Proofs

variable {v v' : Instruction} {u w : Word}

/-! ## Runs of characters -/

/-- The run of `P` at the head of a text ends where something else follows. -/
theorem takeWhile_run_append {P : Char → Bool} {run rest : List Char} (hrun : run.all P = true)
    (hrest : ∀ c ∈ rest.head?, P c = false) : (run ++ rest).takeWhile P = run := by
  rw [List.takeWhile_append_of_pos (List.all_eq_true.mp hrun)]
  cases rest with
  | nil => simp
  | cons c cs => simp [hrest c rfl]

/-- Two texts that begin with a run of `P` and go on with something else have the same run and the same rest. -/
theorem run_append_inj {P : Char → Bool} {run run' rest rest' : List Char} (hrun : run.all P = true)
    (hrun' : run'.all P = true) (hrest : ∀ c ∈ rest.head?, P c = false) (hrest' : ∀ c ∈ rest'.head?, P c = false)
    (h : run ++ rest = run' ++ rest') : run = run' ∧ rest = rest' := by
  have heq : run = run' := by rw [← takeWhile_run_append hrun hrest, h, takeWhile_run_append hrun' hrest']
  exact ⟨heq, List.append_cancel_left (heq ▸ h)⟩

/-- A text that begins, and not with a digit. -/
def isSeparator (text : String) : Bool := text.toList.head?.any (!·.isDigit)

/-- A numeral and its separator are told from what follows. -/
theorem dec_separator_inj {m n : Nat} {sep : String} {rest rest' : List Char} (hsep : isSeparator sep = true)
    (h : (dec m).toList ++ (sep.toList ++ rest) = (dec n).toList ++ (sep.toList ++ rest')) : m = n ∧ rest = rest' := by
  have hstop : ∀ rest : List Char, ∀ c ∈ (sep.toList ++ rest).head?, c.isDigit = false := by
    intro rest c hc
    rw [isSeparator] at hsep
    cases hlist : sep.toList with
    | nil => simp [hlist] at hsep
    | cons d ds => simp_all
  obtain ⟨hdec, hrest⟩ := run_append_inj (List.all_eq_true.mpr (dec_isDigit m)) (List.all_eq_true.mpr (dec_isDigit n))
    (hstop _) (hstop _) h
  exact ⟨dec_injective (String.toList_inj.mp hdec), List.append_cancel_left hrest⟩

/-! ## Operands -/

theorem threeRegs_inj {a b c a' b' c' : RegIdx} (h : threeRegs a b c = threeRegs a' b' c') :
    a = a' ∧ b = b' ∧ c = c' := by
  rw [← String.toList_inj] at h
  simp only [threeRegs, String.toList_append, List.append_assoc, List.append_cancel_left_eq] at h
  obtain ⟨ha, h⟩ := dec_separator_inj (by decide) h
  obtain ⟨hb, h⟩ := dec_separator_inj (by decide) h
  exact ⟨BitVec.eq_of_toNat_eq ha, BitVec.eq_of_toNat_eq hb,
    BitVec.eq_of_toNat_eq (dec_injective (String.toList_inj.mp h))⟩

theorem twoRegsNumber_inj {a b a' b' : RegIdx} {n n' : Nat} (h : twoRegsNumber a b n = twoRegsNumber a' b' n') :
    a = a' ∧ b = b' ∧ n = n' := by
  rw [← String.toList_inj] at h
  simp only [twoRegsNumber, String.toList_append, List.append_assoc, List.append_cancel_left_eq] at h
  obtain ⟨ha, h⟩ := dec_separator_inj (by decide) h
  obtain ⟨hb, h⟩ := dec_separator_inj (by decide) h
  exact ⟨BitVec.eq_of_toNat_eq ha, BitVec.eq_of_toNat_eq hb, dec_injective (String.toList_inj.mp h)⟩

theorem regMem_inj {a b a' b' : RegIdx} {n n' : Nat} (h : regMem a n b = regMem a' n' b') :
    a = a' ∧ n = n' ∧ b = b' := by
  rw [← String.toList_inj] at h
  simp only [regMem, String.toList_append, List.append_assoc, List.append_cancel_left_eq] at h
  obtain ⟨ha, h⟩ := dec_separator_inj (by decide) h
  obtain ⟨hn, h⟩ := dec_separator_inj (by decide) h
  rw [List.append_cancel_right_eq] at h
  exact ⟨BitVec.eq_of_toNat_eq ha, hn, BitVec.eq_of_toNat_eq (dec_injective (String.toList_inj.mp h))⟩

theorem regNumber_inj {a a' : RegIdx} {n n' : Nat} (h : regNumber a n = regNumber a' n') : a = a' ∧ n = n' := by
  rw [← String.toList_inj] at h
  simp only [regNumber, String.toList_append, List.append_assoc, List.append_cancel_left_eq] at h
  obtain ⟨ha, h⟩ := dec_separator_inj (by decide) h
  exact ⟨BitVec.eq_of_toNat_eq ha, dec_injective (String.toList_inj.mp h)⟩

/-! ## Mnemonics and keys -/

/-- Every operation there is. -/
def allOps : List Op :=
  [.add, .sub, .xor, .or, .and, .sll, .srl, .sra, .slt, .sltu, .addi, .xori, .ori, .andi, .slli, .srli, .slti, .sltiu,
    .lb, .lh, .lw, .lbu, .lhu, .sb, .sh, .sw, .beq, .bne, .blt, .bge, .bltu, .bgeu, .lui, .jal, .none]

theorem mem_allOps (op : Op) : op ∈ allOps := by
  cases op <;> decide

theorem nodup_mn : (allOps.map mn).Nodup := by
  decide

theorem mn_injective : Function.Injective mn := fun a b h =>
  List.inj_on_of_nodup_map nodup_mn (mem_allOps a) (mem_allOps b) h

/-- The format of an operation's row. -/
def opFormat : Op → Format
  | .add | .sub | .xor | .or | .and | .sll | .srl | .sra | .slt | .sltu | .none => .R
  | .addi | .xori | .ori | .andi | .slli | .srli | .slti | .sltiu | .lb | .lh | .lw | .lbu | .lhu => .I
  | .sb | .sh | .sw => .S
  | .beq | .bne | .blt | .bge | .bltu | .bgeu => .B
  | .lui => .U
  | .jal => .J

theorem opcode_of_selectI_ne_none {o : Opcode} {f : Funct3} (h : selectI o f ≠ .none) :
    o = 19 ∨ o = 3 ∧ f ∈ loadKeys :=
  not_not.mp (mt (selectI_eq_none_iff o f).mpr h)

theorem opFormat_select (h : select v ≠ .none) : opFormat (select v) = v.format := by
  cases v with
  | R opcode rd funct3 rs1 rs2 funct7 =>
    have hR : ∀ funct3 funct7, selectR funct3 funct7 ≠ .none → opFormat (selectR funct3 funct7) = .R := by decide
    exact hR _ _ h
  | I opcode rd funct3 rs1 imm =>
    have h19 : ∀ f, selectI 19 f ≠ .none → opFormat (selectI 19 f) = .I := by decide
    have h3 : ∀ f, selectI 3 f ≠ .none → opFormat (selectI 3 f) = .I := by decide
    obtain rfl | ⟨rfl, -⟩ := opcode_of_selectI_ne_none h
    · exact h19 _ h
    · exact h3 _ h
  | S opcode immLo funct3 rs1 rs2 immHi =>
    have hS : ∀ funct3, selectS funct3 ≠ .none → opFormat (selectS funct3) = .S := by decide
    exact hS _ h
  | B opcode immLo funct3 rs1 rs2 immHi =>
    have hB : ∀ funct3, selectB funct3 ≠ .none → opFormat (selectB funct3) = .B := by decide
    exact hB _ h
  | U => rfl
  | J => rfl

theorem selectR_inj {f g : Funct3} {x y : Funct7} (h : selectR f x = selectR g y) (hsel : selectR f x ≠ .none) :
    f = g ∧ x = y := by
  have hkeys : (opKeys.map fun key => selectR key.1 key.2).Nodup := by decide
  have hmem : ∀ {f x}, selectR f x ≠ .none → (f, x) ∈ opKeys := fun hne =>
    not_not.mp (mt (selectR_eq_none_iff ..).mpr hne)
  exact Prod.mk.inj (List.inj_on_of_nodup_map hkeys (hmem hsel) (hmem (h ▸ hsel)) h)

theorem selectI_inj {o p : Opcode} {f g : Funct3} (h : selectI o f = selectI p g) (hsel : selectI o f ≠ .none) :
    o = p ∧ f = g := by
  have hkeys : ∀ o ∈ [(19 : Opcode), 3], ∀ p ∈ [(19 : Opcode), 3], ∀ f g,
      selectI o f ≠ .none → selectI o f = selectI p g → o = p ∧ f = g := by decide
  have hmem : ∀ {o f}, selectI o f ≠ .none → o ∈ [(19 : Opcode), 3] := fun hne => by
    have := opcode_of_selectI_ne_none hne
    simp only [List.mem_cons, List.not_mem_nil, or_false]
    exact this.imp_right And.left
  exact hkeys _ (hmem hsel) _ (hmem (h ▸ hsel)) _ _ hsel h

theorem selectS_inj {f g : Funct3} (h : selectS f = selectS g) (hsel : selectS f ≠ .none) : f = g := by
  revert f g
  decide

theorem selectB_inj {f g : Funct3} (h : selectB f = selectB g) (hsel : selectB f ≠ .none) : f = g := by
  revert f g
  decide

/-- Operation and operands determine a variant whose opcode has its format. -/
theorem eq_of_operands (hv : FormatAgrees v) (hv' : FormatAgrees v') (hsel : select v ≠ .none)
    (hop : select v = select v') (h : operandsOf v = operandsOf v') : v = v' := by
  have hformat : v.format = v'.format := by rw [← opFormat_select hsel, hop, opFormat_select (hop ▸ hsel)]
  cases v with
  | R opcode rd funct3 rs1 rs2 funct7 =>
    cases v' with
    | R opcode' =>
      obtain ⟨rfl, rfl⟩ := selectR_inj hop hsel
      obtain ⟨rfl, rfl, rfl⟩ := threeRegs_inj h
      obtain rfl : opcode = opcode' := (opcode_of_format_R hv).trans (opcode_of_format_R hv').symm
      rfl
    | _ => cases hformat
  | I opcode rd funct3 rs1 imm =>
    cases v' with
    | I =>
      obtain ⟨rfl, rfl⟩ := selectI_inj hop hsel
      simp only [operandsOf] at h
      split at h
      · obtain ⟨rfl, himm, rfl⟩ := regMem_inj h
        rw [BitVec.eq_of_toNat_eq himm]
      · obtain ⟨rfl, rfl, himm⟩ := twoRegsNumber_inj h
        rw [BitVec.eq_of_toNat_eq himm]
    | _ => cases hformat
  | S opcode =>
    cases v' with
    | S opcode' =>
      obtain rfl := selectS_inj hop hsel
      obtain ⟨rfl, hnumber, rfl⟩ := regMem_inj h
      obtain ⟨rfl, rfl⟩ := sNumber_inj hnumber
      obtain rfl : opcode = opcode' := (opcode_of_format_S hv).trans (opcode_of_format_S hv').symm
      rfl
    | _ => cases hformat
  | B opcode =>
    cases v' with
    | B opcode' =>
      obtain rfl := selectB_inj hop hsel
      obtain ⟨rfl, rfl, hnumber⟩ := twoRegsNumber_inj h
      obtain ⟨rfl, rfl⟩ := bNumber_inj hnumber
      obtain rfl : opcode = opcode' := (opcode_of_format_B hv).trans (opcode_of_format_B hv').symm
      rfl
    | _ => cases hformat
  | U opcode =>
    cases v' with
    | U opcode' =>
      obtain ⟨rfl, himm⟩ := regNumber_inj h
      obtain rfl : opcode = opcode' := (opcode_of_format_U hv).trans (opcode_of_format_U hv').symm
      rw [BitVec.eq_of_toNat_eq himm]
    | _ => cases hformat
  | J opcode =>
    cases v' with
    | J opcode' =>
      obtain ⟨rfl, hnumber⟩ := regNumber_inj h
      obtain rfl := jNumber_inj hnumber
      obtain rfl : opcode = opcode' := (opcode_of_format_J hv).trans (opcode_of_format_J hv').symm
      rfl
    | _ => cases hformat

theorem eq_of_render_selected (hv : FormatAgrees v) (hv' : FormatAgrees v') (hsel : select v ≠ .none)
    (hsel' : select v' ≠ .none) (h : render v = render v') : v = v' := by
  rw [render_of_selected hsel, render_of_selected hsel', ← String.toList_inj] at h
  simp only [String.toList_append, List.append_assoc] at h
  have hspace : ∀ text : List Char, ∀ c ∈ (" ".toList ++ text).head?, c.isLower = false := by
    rintro text c ⟨⟩
    decide
  obtain ⟨hmn, hrest⟩ := run_append_inj (mn_of_ne_none _ hsel).1 (mn_of_ne_none _ hsel').1 (hspace _) (hspace _) h
  exact eq_of_operands hv hv' hsel (mn_injective (String.toList_inj.mp hmn))
    (String.toList_inj.mp (List.append_cancel_left hrest))

/-! ## Dumps -/

/-- The variant of a format with these field values. -/
def variantOf : Format → List Nat → Instruction
  | .R, [a, b, c, d, e, f] => .R (.ofNat _ a) (.ofNat _ b) (.ofNat _ c) (.ofNat _ d) (.ofNat _ e) (.ofNat _ f)
  | .I, [a, b, c, d, e] => .I (.ofNat _ a) (.ofNat _ b) (.ofNat _ c) (.ofNat _ d) (.ofNat _ e)
  | .S, [a, b, c, d, e, f] => .S (.ofNat _ a) (.ofNat _ b) (.ofNat _ c) (.ofNat _ d) (.ofNat _ e) (.ofNat _ f)
  | .B, [a, b, c, d, e, f] => .B (.ofNat _ a) (.ofNat _ b) (.ofNat _ c) (.ofNat _ d) (.ofNat _ e) (.ofNat _ f)
  | .U, [a, b, c] => .U (.ofNat _ a) (.ofNat _ b) (.ofNat _ c)
  | .J, [a, b, c] => .J (.ofNat _ a) (.ofNat _ b) (.ofNat _ c)
  | _, _ => .U 0 0 0

theorem variantOf_fieldValues (v : Instruction) : variantOf v.format (fieldValues v) = v := by
  cases v <;> simp only [variantOf, fieldValues, Instruction.format, BitVec.ofNat_toNat, BitVec.setWidth_eq]

theorem namedField_injective (name : String) : Function.Injective (namedField name) := by
  intro m n h
  rw [← String.toList_inj] at h
  simp only [namedField, String.toList_append, List.append_cancel_left_eq] at h
  exact dec_injective (String.toList_inj.mp h)

theorem namedField_separator_inj {name : String} {m n : Nat} {rest rest' : String}
    (h : namedField name m ++ ", " ++ rest = namedField name n ++ ", " ++ rest') : m = n ∧ rest = rest' := by
  rw [← String.toList_inj] at h
  simp only [namedField, String.toList_append, List.append_assoc, List.append_cancel_left_eq] at h
  obtain ⟨hvalue, hrest⟩ := dec_separator_inj (by decide) h
  exact ⟨hvalue, String.toList_inj.mp hrest⟩

/-- The named fields determine their values. -/
theorem namedFields_inj {names : List String} {xs ys : List Nat} (hx : xs.length = names.length)
    (hy : ys.length = names.length)
    (h : String.intercalate ", " (List.zipWith namedField names xs) =
      String.intercalate ", " (List.zipWith namedField names ys)) : xs = ys := by
  induction names generalizing xs ys with
  | nil => rw [List.length_eq_zero_iff.mp hx, List.length_eq_zero_iff.mp hy]
  | cons name names ih =>
    obtain ⟨x, xs, rfl⟩ := List.exists_cons_of_length_eq_add_one hx
    obtain ⟨y, ys, rfl⟩ := List.exists_cons_of_length_eq_add_one hy
    rw [List.length_cons, List.length_cons, Nat.add_right_cancel_iff] at hx hy
    cases names with
    | nil =>
      rw [List.length_eq_zero_iff.mp hx, List.length_eq_zero_iff.mp hy] at h ⊢
      simp only [List.zipWith_cons_cons, List.zipWith_nil_left, String.intercalate_singleton] at h
      rw [namedField_injective name h]
    | cons name' names =>
      obtain ⟨x', xs, rfl⟩ := List.exists_cons_of_length_eq_add_one hx
      obtain ⟨y', ys, rfl⟩ := List.exists_cons_of_length_eq_add_one hy
      simp only [List.zipWith_cons_cons, String.intercalate_cons_cons] at h ih
      obtain ⟨rfl, hrest⟩ := namedField_separator_inj h
      rw [ih hx hy hrest]

theorem fieldValues_length (v : Instruction) : (fieldValues v).length = (fieldNames v.format).length := by
  cases v <;> rfl

/-- The format of a variant letter. -/
def formatOfLetter (c : Char) : Format :=
  if c = 'R' then .R else if c = 'I' then .I else if c = 'S' then .S else if c = 'B' then .B
  else if c = 'U' then .U else .J

theorem formatOfLetter_letterOf (f : Format) : formatOfLetter (letterOf f) = f := by
  cases f <;> decide

theorem dump_injective : Function.Injective dump := by
  intro v v' h
  rw [← String.toList_inj, dump_toList, dump_toList, List.append_cancel_right_eq] at h
  obtain ⟨hhead, hbody⟩ := List.append_inj h rfl
  have hletter : letterOf v.format = letterOf v'.format := List.head_eq_of_cons_eq hhead
  have hformat : v.format = v'.format := by
    rw [← formatOfLetter_letterOf v.format, hletter, formatOfLetter_letterOf]
  have hfields : dumpBody v = dumpBody v' := String.toList_inj.mp hbody
  rw [dumpBody, dumpBody, ← hformat] at hfields
  have hvalues := namedFields_inj (fieldValues_length v) ((fieldValues_length v').trans (by rw [hformat])) hfields
  rw [← variantOf_fieldValues v, hformat, hvalues, variantOf_fieldValues]

/-- A mnemonic line is not a dump: it has no opening brace. -/
theorem select_eq_none_of_render_eq (h : render v = render v') (hnone : select v = .none) : select v' = .none := by
  by_contra hsel'
  have hbrace : Char.ofNat 123 ∈ (render v').toList := by
    rw [← h, render_of_select_eq_none hnone, dump_toList]
    exact List.mem_append_left _ (List.mem_append_left _ (by simp))
  exact absurd (List.all_eq_true.mp (render_all_of_selected hsel') _ hbrace) (by decide)

theorem render_inj (hv : FormatAgrees v) (hv' : FormatAgrees v') (h : render v = render v') : v = v' := by
  by_cases hnone : select v = .none
  · have hnone' := select_eq_none_of_render_eq h hnone
    rw [render_of_select_eq_none hnone, render_of_select_eq_none hnone'] at h
    exact dump_injective h
  · have hsel' : select v' ≠ .none := mt (select_eq_none_of_render_eq h.symm) hnone
    exact eq_of_render_selected hv hv' hnone hsel' h

theorem disasm_ok_iff {t : String} : disasm w = .ok t ↔ ∃ v, decode w = .ok v ∧ render v = t := by
  rw [disasm]
  cases decode w with
  | ok v => simp
  | err e => simp

end Sys2Proof.Proofs

open Sys2Proof.Proofs

/-- Settles O57: equal lines are lines of one variant, and words of one variant differ at most in bit 31 of a store. -/
theorem printedLineDeterminesTheWord : Obligations.PrintedLineDeterminesTheWord := by
  intro u w t hu hw
  obtain ⟨v, hv, rfl⟩ := disasm_ok_iff.mp hu
  obtain ⟨v', hv', hrender⟩ := disasm_ok_iff.mp hw
  obtain rfl := render_inj (formatAgrees_of_decode hv') (formatAgrees_of_decode hv) hrender
  refine (decodeIdentifiesOnlyStoresDifferingInBit31.1 u w _ hv hv').imp_right fun ⟨hstore, hxor⟩ => ⟨hstore, ?_, hxor⟩
  exact (format_eq_S_iff_of_decode hv').mp ((format_eq_S_iff_of_decode hv).mpr hstore)

end
